-- ==== Sys2Proof/Word.lean ====
section
/-! DEFINITION. The sizes and value types of `00_scope.md` rules R5 and R8: what is a bit pattern is a
`BitVec`, what is only an index is a `Fin`, and what is one of sixteen like things is a `Vector`. -/

namespace Sys2Proof

/-- One byte of memory, one general register, the delay timer, the stack pointer (R5: V_BITS, DT_BITS, SP_BITS). -/
abbrev Byte := BitVec 8

/-- An instruction word, `I`, `pc` or a stack slot (R5: I_BITS, PC_BITS, STACK_SLOT_BITS). -/
abbrev Word := BitVec 16

/-- The 12-bit address field `nnn` of an instruction (R81). -/
abbrev Addr := BitVec 12

/-- A general register's number: a 4-bit field, so every number is in range (R21). -/
abbrev RegIdx := Fin 16

/-- The keypad input of a cycle: sixteen independent pressed flags, one per key 0x0 to 0xF (R31). -/
abbrev Keypad := Vector Bool 16

/-- The display framebuffer: 64 columns of 32 cells; the cell in column x, row y is `fb[x][y]` (R29, R182). -/
abbrev Framebuffer := Vector (Vector Bool 32) 64

/-- The parameter FONT: 80 glyph bytes (R5, R55). -/
abbrev Font := Vector Byte 80

/-- MEM_SIZE of R5: the number of bytes of the one memory. -/
abbrev memSize : Nat := 4096

/-- FONT_BYTES of R5. -/
abbrev fontBytes : Nat := 80

/-- PROG_BASE of R5: where the ROM is loaded and where pc starts. -/
abbrev progBase : Nat := 0x200

/-- ROM_MAX of R5: the longest ROM image, in bytes. -/
abbrev romMax : Nat := 3584

/-- STACK_DEPTH of R5. -/
abbrev stackDepth : Nat := 16

end Sys2Proof
end

