-- ==== Sys2Proof/Config.lean ====
section
/-! DEFINITION. The free values of the machine's surroundings: what the host does when the state lists no
host operation that says otherwise. Each is a constant without a body, so nothing can be proved of its values
(log entries 2, 3 and 4). -/

namespace Sys2Proof.Config

/-- FREE VALUE: the keys the host holds down in its n-th unlisted cycle.
"between cycles the host may set them to anything" (R31; log entry 2). -/
opaque freeKeys : Nat → Keypad

/-- FREE VALUE: the byte the random source yields in the host's n-th unlisted cycle.
"It is an 8-bit input with any value, fresh for every cycle, under no law" (R31, D15; log entry 3). -/
opaque freeRandom : Nat → Byte

/-- FREE VALUE: how many TimerTicks the host runs after its n-th unlisted cycle.
"The core places no constraint on how many TimerTicks fall between two cycles" (R222, D16; log entry 4). -/
opaque freeTicks : Nat → Nat

end Sys2Proof.Config
end

