-- ==== Sys2Proof/Syntax.lean ====
section
/-! DEFINITION. The 34 instructions of `30_encoding.md` rule R85, one constructor per row, with the operand
fields of R81. Register numbers and the sprite height are `Fin 16`; `kk` and `nnn` are the bit fields themselves. -/

namespace Sys2Proof

/-- One constructor per row of the opcode map (R85), in the map's order; the pattern is in each docstring. -/
inductive Instr where
  /-- 00E0, CLS (R180) -/
  | cls
  /-- 00EE, RET (R120) -/
  | ret
  /-- 1nnn, JP nnn (R121) -/
  | jp (nnn : Addr)
  /-- 2nnn, CALL nnn (R122) -/
  | call (nnn : Addr)
  /-- 3xkk, SE Vx, kk (R123) -/
  | seImm (x : RegIdx) (kk : Byte)
  /-- 4xkk, SNE Vx, kk (R124) -/
  | sneImm (x : RegIdx) (kk : Byte)
  /-- 5xy0, SE Vx, Vy (R125) -/
  | seReg (x y : RegIdx)
  /-- 6xkk, LD Vx, kk (R140) -/
  | ldImm (x : RegIdx) (kk : Byte)
  /-- 7xkk, ADD Vx, kk (R141) -/
  | addImm (x : RegIdx) (kk : Byte)
  /-- 8xy0, LD Vx, Vy (R142) -/
  | ldReg (x y : RegIdx)
  /-- 8xy1, OR Vx, Vy (R143) -/
  | orReg (x y : RegIdx)
  /-- 8xy2, AND Vx, Vy (R144) -/
  | andReg (x y : RegIdx)
  /-- 8xy3, XOR Vx, Vy (R145) -/
  | xorReg (x y : RegIdx)
  /-- 8xy4, ADD Vx, Vy (R146) -/
  | addReg (x y : RegIdx)
  /-- 8xy5, SUB Vx, Vy (R147) -/
  | subReg (x y : RegIdx)
  /-- 8xy6, SHR Vx (R148); y is decoded and ignored (R88) -/
  | shr (x y : RegIdx)
  /-- 8xy7, SUBN Vx, Vy (R149) -/
  | subnReg (x y : RegIdx)
  /-- 8xyE, SHL Vx (R150); y is decoded and ignored (R88) -/
  | shl (x y : RegIdx)
  /-- 9xy0, SNE Vx, Vy (R126) -/
  | sneReg (x y : RegIdx)
  /-- Annn, LD I, nnn (R160) -/
  | ldI (nnn : Addr)
  /-- Bnnn, JP V0, nnn (R127) -/
  | jpV0 (nnn : Addr)
  /-- Cxkk, RND Vx, kk (R151) -/
  | rnd (x : RegIdx) (kk : Byte)
  /-- Dxyn, DRW Vx, Vy, n (R181) -/
  | drw (x y : RegIdx) (n : Fin 16)
  /-- Ex9E, SKP Vx (R190) -/
  | skp (x : RegIdx)
  /-- ExA1, SKNP Vx (R191) -/
  | sknp (x : RegIdx)
  /-- Fx07, LD Vx, DT (R193) -/
  | ldVxDt (x : RegIdx)
  /-- Fx0A, LD Vx, K (R192) -/
  | ldVxK (x : RegIdx)
  /-- Fx15, LD DT, Vx (R194) -/
  | ldDtVx (x : RegIdx)
  /-- Fx18, LD ST, Vx (R195); x is decoded and ignored (R88) -/
  | ldStVx (x : RegIdx)
  /-- Fx1E, ADD I, Vx (R161) -/
  | addI (x : RegIdx)
  /-- Fx29, LD F, Vx (R162) -/
  | ldF (x : RegIdx)
  /-- Fx33, LD B, Vx (R163) -/
  | ldB (x : RegIdx)
  /-- Fx55, LD [I], Vx (R164) -/
  | storeRegs (x : RegIdx)
  /-- Fx65, LD Vx, [I] (R165) -/
  | loadRegs (x : RegIdx)
deriving DecidableEq, Repr

end Sys2Proof
end

