-- ==== Sys2Proof/WellFormed.lean ====
section
/-! DEFINITION. Which words are well-formed instruction words, family by family, as `30_encoding.md` rules R87
and R91 say it. Every TERM of `Instr` is well-formed by its types (R21: "every index is in range"; R81: every field
has a fixed width), so the checks that can fail are checks on words. The decoder is written from another text of the
spec, the masks of R85; that the two agree is a statement of its own. -/

namespace Sys2Proof

/-- Family 0: "the 0 family requires the whole word to be 0x00E0 or 0x00EE" (R91). -/
def wellFormedFamily0 (op : Word) : Bool := op == 0x00E0#16 || op == 0x00EE#16

/-- Families 5 and 9: "`5xy0` and `9xy0` require nibble 3 = 0" (R91). -/
def wellFormedFamily59 (op : Word) : Bool := op.toNat % 16 == 0

/-- Family 8: "the 8 family requires nibble 3 in {0, 1, 2, 3, 4, 5, 6, 7, E}" (R91). -/
def wellFormedFamily8 (op : Word) : Bool := [0, 1, 2, 3, 4, 5, 6, 7, 0xE].contains (op.toNat % 16)

/-- Family E: "the whole low byte to be 0x9E or 0xA1" (R91). -/
def wellFormedFamilyE (op : Word) : Bool := [0x9E, 0xA1].contains (op.toNat % 256)

/-- Family F: the whole low byte is one of the nine of R91. -/
def wellFormedFamilyF (op : Word) : Bool :=
  [0x07, 0x0A, 0x15, 0x18, 0x1E, 0x29, 0x33, 0x55, 0x65].contains (op.toNat % 256)

/-- A word is a well-formed instruction word when its family's check passes; the families not named have no
unknown words (R87). -/
def wellFormedWord (op : Word) : Bool :=
  match op.toNat / 4096 with
  | 0x0 => wellFormedFamily0 op
  | 0x5 => wellFormedFamily59 op
  | 0x8 => wellFormedFamily8 op
  | 0x9 => wellFormedFamily59 op
  | 0xE => wellFormedFamilyE op
  | 0xF => wellFormedFamilyF op
  | _ => true

end Sys2Proof
end

