-- ==== Sys2Proof/Decode.lean ====
section
/-! DEFINITION. The decoder of `30_encoding.md` (fields R81, opcode map R85, exact masks R86 and R91, unknown words
R87) and, after it, the encoder, written from the formats of R84. -/

namespace Sys2Proof

/-! ### Fields -/

/-- The decoded fields of an instruction word (R81). -/
structure Fields where
  x : RegIdx
  y : RegIdx
  n : Fin 16
  kk : Byte
  nnn : Addr
deriving DecidableEq, Repr

/-- `nibble(instruction, position)`: position p is `op[15 − 4p : 12 − 4p]` (R82). -/
def nibble (op : Word) (p : Nat) : BitVec 4 := op.extractLsb' (12 - 4 * p) 4

/-- Field extraction: fixed slices of `op`, which cannot fail (R81, R82). -/
def fieldsOf (op : Word) : Fields where
  x := (nibble op 1).toFin
  y := (nibble op 2).toFin
  n := (nibble op 3).toFin
  kk := op.extractLsb' 0 8
  nnn := op.extractLsb' 0 12

/-! ### The opcode map -/

/-- One row of the opcode map: the words with `(op AND mask) = pat` are this instruction (R85). -/
structure Row where
  mask : Word
  pat : Word
  build : Fields → Instr

/-- `(op AND mask) = match` (R85). -/
def Row.matchesWord (r : Row) (op : Word) : Bool := op &&& r.mask == r.pat

/-- Rows of format E: the whole word is fixed (R84). -/
def rowsE : List Row :=
  [ ⟨0xFFFF, 0x00E0, fun _ => .cls⟩,
    ⟨0xFFFF, 0x00EE, fun _ => .ret⟩ ]

/-- Rows of formats A, XK and XYN: nibble 0 alone is fixed (R84). -/
def rowsF000 : List Row :=
  [ ⟨0xF000, 0x1000, fun f => .jp f.nnn⟩,
    ⟨0xF000, 0x2000, fun f => .call f.nnn⟩,
    ⟨0xF000, 0x3000, fun f => .seImm f.x f.kk⟩,
    ⟨0xF000, 0x4000, fun f => .sneImm f.x f.kk⟩,
    ⟨0xF000, 0x6000, fun f => .ldImm f.x f.kk⟩,
    ⟨0xF000, 0x7000, fun f => .addImm f.x f.kk⟩,
    ⟨0xF000, 0xA000, fun f => .ldI f.nnn⟩,
    ⟨0xF000, 0xB000, fun f => .jpV0 f.nnn⟩,
    ⟨0xF000, 0xC000, fun f => .rnd f.x f.kk⟩,
    ⟨0xF000, 0xD000, fun f => .drw f.x f.y f.n⟩ ]

/-- Rows of format XY: nibbles 0 and 3 are fixed (R84). -/
def rowsF00F : List Row :=
  [ ⟨0xF00F, 0x5000, fun f => .seReg f.x f.y⟩,
    ⟨0xF00F, 0x8000, fun f => .ldReg f.x f.y⟩,
    ⟨0xF00F, 0x8001, fun f => .orReg f.x f.y⟩,
    ⟨0xF00F, 0x8002, fun f => .andReg f.x f.y⟩,
    ⟨0xF00F, 0x8003, fun f => .xorReg f.x f.y⟩,
    ⟨0xF00F, 0x8004, fun f => .addReg f.x f.y⟩,
    ⟨0xF00F, 0x8005, fun f => .subReg f.x f.y⟩,
    ⟨0xF00F, 0x8006, fun f => .shr f.x f.y⟩,
    ⟨0xF00F, 0x8007, fun f => .subnReg f.x f.y⟩,
    ⟨0xF00F, 0x800E, fun f => .shl f.x f.y⟩,
    ⟨0xF00F, 0x9000, fun f => .sneReg f.x f.y⟩ ]

/-- Rows of format X: nibble 0 and the low byte are fixed (R84). -/
def rowsF0FF : List Row :=
  [ ⟨0xF0FF, 0xE09E, fun f => .skp f.x⟩,
    ⟨0xF0FF, 0xE0A1, fun f => .sknp f.x⟩,
    ⟨0xF0FF, 0xF007, fun f => .ldVxDt f.x⟩,
    ⟨0xF0FF, 0xF00A, fun f => .ldVxK f.x⟩,
    ⟨0xF0FF, 0xF015, fun f => .ldDtVx f.x⟩,
    ⟨0xF0FF, 0xF018, fun f => .ldStVx f.x⟩,
    ⟨0xF0FF, 0xF01E, fun f => .addI f.x⟩,
    ⟨0xF0FF, 0xF029, fun f => .ldF f.x⟩,
    ⟨0xF0FF, 0xF033, fun f => .ldB f.x⟩,
    ⟨0xF0FF, 0xF055, fun f => .storeRegs f.x⟩,
    ⟨0xF0FF, 0xF065, fun f => .loadRegs f.x⟩ ]

/-- "The complete opcode map: 34 instructions" (R85), grouped by format. No word matches two rows, so the order
cannot matter (R86). -/
def opcodeMap : List Row := rowsE ++ rowsF000 ++ rowsF00F ++ rowsF0FF

/-! ### The decoder -/

/-- Why bytes do not decode, by name. -/
inductive DecodeError where
  /-- The word matches no row of R85 (R87); the machine goes on and reports it (R105). -/
  | unknownOpcode (op : Word)
  /-- Fewer than the two bytes of an instruction were given (R80). The fetch always gives two. -/
  | tooFewBytes
deriving DecidableEq, Repr

/-- Decode one instruction word by the exact masks; total on all 65536 words (R86, R91, R102). -/
def decodeWord (op : Word) : Except DecodeError Instr :=
  match opcodeMap.find? (fun r => r.matchesWord op) with
  | some r => .ok (r.build (fieldsOf op))
  | none => .error (.unknownOpcode op)

/-- The instruction word of two bytes: the first byte is the high one (R56, R80). -/
def wordOfBytes (first second : Byte) : Word := first ++ second

/-- Decode the first instruction of a byte sequence and give back the rest: every instruction is exactly two
bytes (R80). -/
def decodeBytes : List Byte → Except DecodeError (Instr × List Byte)
  | first :: second :: rest =>
    match decodeWord (wordOfBytes first second) with
    | .ok i => .ok (i, rest)
    | .error e => .error e
  | _ => .error .tooFewBytes

/-! ### The encoder -/

/-- Format A: `oooo nnnn nnnn nnnn` (R84). -/
def formatA (o : BitVec 4) (nnn : Addr) : Word := o ++ nnn

/-- Format XK: `oooo xxxx kkkk kkkk` (R84). -/
def formatXK (o : BitVec 4) (x : RegIdx) (kk : Byte) : Word := o ++ BitVec.ofNat 4 x.val ++ kk

/-- Formats XY and XYN: `oooo xxxx yyyy ssss`, the last nibble a minor opcode or the count n (R84). -/
def formatXY (o : BitVec 4) (x y : RegIdx) (s : BitVec 4) : Word :=
  o ++ BitVec.ofNat 4 x.val ++ BitVec.ofNat 4 y.val ++ s

/-- Format X: `oooo xxxx ssss ssss`, the low byte a minor opcode (R84). -/
def formatX (o : BitVec 4) (x : RegIdx) (s : Byte) : Word := formatXK o x s

/-- The instruction word of an instruction, from the patterns of R84 and R85. -/
def encode : Instr → Word
  | .cls => 0x00E0
  | .ret => 0x00EE
  | .jp nnn => formatA 0x1 nnn
  | .call nnn => formatA 0x2 nnn
  | .seImm x kk => formatXK 0x3 x kk
  | .sneImm x kk => formatXK 0x4 x kk
  | .seReg x y => formatXY 0x5 x y 0x0
  | .ldImm x kk => formatXK 0x6 x kk
  | .addImm x kk => formatXK 0x7 x kk
  | .ldReg x y => formatXY 0x8 x y 0x0
  | .orReg x y => formatXY 0x8 x y 0x1
  | .andReg x y => formatXY 0x8 x y 0x2
  | .xorReg x y => formatXY 0x8 x y 0x3
  | .addReg x y => formatXY 0x8 x y 0x4
  | .subReg x y => formatXY 0x8 x y 0x5
  | .shr x y => formatXY 0x8 x y 0x6
  | .subnReg x y => formatXY 0x8 x y 0x7
  | .shl x y => formatXY 0x8 x y 0xE
  | .sneReg x y => formatXY 0x9 x y 0x0
  | .ldI nnn => formatA 0xA nnn
  | .jpV0 nnn => formatA 0xB nnn
  | .rnd x kk => formatXK 0xC x kk
  | .drw x y n => formatXY 0xD x y (BitVec.ofNat 4 n.val)
  | .skp x => formatX 0xE x 0x9E
  | .sknp x => formatX 0xE x 0xA1
  | .ldVxDt x => formatX 0xF x 0x07
  | .ldVxK x => formatX 0xF x 0x0A
  | .ldDtVx x => formatX 0xF x 0x15
  | .ldStVx x => formatX 0xF x 0x18
  | .addI x => formatX 0xF x 0x1E
  | .ldF x => formatX 0xF x 0x29
  | .ldB x => formatX 0xF x 0x33
  | .storeRegs x => formatX 0xF x 0x55
  | .loadRegs x => formatX 0xF x 0x65

/-- The two bytes of a word as the hardware stores them, the high byte at the lower address (R56). -/
def bytesOfWord (op : Word) : List Byte := [op.extractLsb' 8 8, op.extractLsb' 0 8]

/-- The instruction word given by `nbits` bits numbered as `spec/opcode_table.json` numbers them, every bit
above `nbits` zero. -/
def tableWord (nbits w : Nat) : Word := BitVec.ofNat 16 (w % 2 ^ (min nbits 16))

/-- What the decoder reads from a table row's word: its bytes laid out as the hardware stores them, given to
`decodeBytes`. -/
def decodeTableWord (nbits w : Nat) : Option Instr :=
  match decodeBytes (bytesOfWord (tableWord nbits w)) with
  | .ok (i, _) => some i
  | .error _ => none

end Sys2Proof
end

