-- ==== Sys2Proof/Machine/State.lean ====
section
/-! DEFINITION. The state of the machine (`10_state.md`): `Chip` is the core's complete state, exactly the eight
items of R20; `State` is the core together with the plain data of its surroundings that a step of one closed machine
needs (the two input ports and the result port of a cycle, and the operations the host has still to start: log
entries 1 to 6). Then the reasons a step can stop, and the state after reset. -/

namespace Sys2Proof.Machine

/-- Memory: (address, byte) pairs, addresses strictly rising, no entry equal to what an unlisted address reads as
(`Memory.wf` in Machine/Ops.lean). The addresses are 0x000 to 0xFFF (R50). -/
abbrev Memory := List Host.Cell

/-- The complete state of the core: the eight items of R20 and nothing else. -/
structure Chip where
  /-- V0 to VF, sixteen 8-bit general registers (R21); VF is also the flag (R22) -/
  v : Vector Byte 16
  /-- the index register I, 16 bits as stored (R23) -/
  i : Word
  /-- the program counter, 16 bits as stored (R24) -/
  pc : Word
  /-- the call stack, sixteen 16-bit slots (R25) -/
  stack : Vector Word 16
  /-- the stack pointer, 8 bits, legal values 0 to 16 (R26) -/
  sp : Byte
  /-- the delay timer, 8 bits (R27) -/
  dt : Byte
  /-- the 4096-byte memory (R28, R50) -/
  mem : Memory
  /-- the 64 × 32 framebuffer (R29) -/
  fb : Framebuffer
deriving DecidableEq, Repr

/-- The result code of a cycle (R104, R211). -/
inductive Result where
  /-- the instruction executed fully -/
  | ok
  /-- the instruction was Fx0A and no key was down: nothing changed -/
  | waitKey
  /-- the word matches no pattern: pc + 2 only; carries the word (R105) -/
  | unknownOpcode (op : Word)
  /-- 2nnn at sp = 16: nothing changed (R212) -/
  | stackOverflow
  /-- 00EE at sp = 0: nothing changed (R213) -/
  | stackUnderflow
deriving DecidableEq, Repr

/-- An operation the host can start (R4). FONT is an argument of Reset (R5, R240). -/
inductive HostOp where
  /-- `Cycle(key, rnd)`: one instruction (R100) -/
  | cycle (key : Keypad) (rnd : Byte)
  /-- `TimerTick()` (R222) -/
  | timerTick
  /-- `Reset(rom)` with the parameter FONT (R240) -/
  | reset (font : Font) (rom : List Byte)
deriving DecidableEq, Repr

/-- The core and its surroundings, as plain data. -/
structure State where
  /-- the core's own state -/
  chip : Chip
  /-- input port of the cycle: the sixteen key flags, sampled when the cycle begins (R31, R106) -/
  key : Keypad
  /-- input port of the cycle: the random byte, sampled when the cycle begins (R31, R106) -/
  rnd : Byte
  /-- output port: the result code of the last cycle, none when no cycle has run (R34, R104) -/
  result : Option Result
  /-- MODEL'S OWN: the operations the host will start next, the first one first (log entry 1) -/
  host : List HostOp
  /-- MODEL'S OWN: how many cycles the host has run that were not listed in `host`; it picks the free values
  (log entries 2, 3, 4) -/
  turn : Nat
deriving DecidableEq, Repr

/-- The reasons a step ends with no next state. -/
inductive Fault where
  /-- SAFE. Raised by the host operation Reset alone, when the ROM is longer than 3584 bytes: "no state is
  created", so there is nothing to go on from (R242, U16). Carries the ROM's length. -/
  | romTooLarge (len : Nat)
  /-- SAFE. Raised by 2nnn and 00EE when sp is above 16, a value the spec says sp never has (R26): no rule
  gives a slot. No state that meets the invariant raises it (log entry 7). -/
  | illegalStackPointer
deriving DecidableEq, Repr

/-- The reasons a step has no meaning. -/
inductive Refusal where
  /-- SAFE. Raised by an arm of `exec` whose instruction has no meaning yet. No arm does. -/
  | notModelled (mnemonic : String)
deriving DecidableEq, Repr

/-- The three outcomes of a step of this machine. -/
abbrev StepOutcome := Host.Outcome State Fault Refusal

/-- The core right after `Reset` with an empty ROM and the default FONT of R55: every item at the value of R34;
memory lists nothing, since an unlisted address reads as its reset contents. -/
def Chip.reset : Chip where
  v := Vector.replicate 16 0
  i := 0x0000
  pc := 0x0200
  stack := Vector.replicate 16 0
  sp := 0x00
  dt := 0x00
  mem := []
  fb := Vector.replicate 64 (Vector.replicate 32 false)

/-- The machine right after reset: the core as R34 says, no cycle run yet, no host operation listed. The values of
the two input ports are a DESIGN CHOICE (log entry 6): a step sets both before anything reads them. -/
def State.reset : State where
  chip := Chip.reset
  key := Vector.replicate 16 false
  rnd := 0x00
  result := none
  host := []
  turn := 0

end Sys2Proof.Machine
end

