-- ==== Sys2Proof/Machine/Ops.lean ====
section
/-! DEFINITION. The named operations every instruction is built from: memory (`20_memory.md`), the register file
(`10_state.md`), the program counter's classes (`40_cycle.md` R103), the fetch (R101), and how a cycle ends: with its
effect (R104), with an error that changes nothing (`60_exceptions.md` R219), or on an unknown opcode (R105). -/

namespace Sys2Proof.Machine

/-! ### Memory -/

/-- The default value of the parameter FONT: the table of R55, glyphs 0 to F, five bytes each (log entry 8). -/
def defaultFont : Font :=
  #v[0xF0, 0x90, 0x90, 0x90, 0xF0,  0x20, 0x60, 0x20, 0x20, 0x70,
     0xF0, 0x10, 0xF0, 0x80, 0xF0,  0xF0, 0x10, 0xF0, 0x10, 0xF0,
     0x90, 0x90, 0xF0, 0x10, 0x10,  0xF0, 0x80, 0xF0, 0x10, 0xF0,
     0xF0, 0x80, 0xF0, 0x90, 0xF0,  0xF0, 0x10, 0x20, 0x40, 0x40,
     0xF0, 0x90, 0xF0, 0x90, 0xF0,  0xF0, 0x90, 0xF0, 0x10, 0xF0,
     0xF0, 0x90, 0xF0, 0x90, 0x90,  0xE0, 0x90, 0xE0, 0x90, 0xE0,
     0xF0, 0x80, 0x80, 0x80, 0xF0,  0xE0, 0x90, 0x90, 0x90, 0xE0,
     0xF0, 0x80, 0xF0, 0x80, 0xF0,  0xF0, 0x80, 0xF0, 0x80, 0x80]

/-- What an unlisted address reads as: the reset contents of memory under the default FONT and an empty ROM, the
font at 0x000 to 0x04F and zero everywhere else (R54, R241). -/
def Memory.unlisted (a : Nat) : Byte := if h : a < fontBytes then defaultFont[a] else 0x00

/-- The canonical form: addresses strictly rising and below 0x1000, no entry equal to what an unlisted address reads
as. -/
abbrev Memory.wf (m : Memory) : Prop :=
  m.Pairwise (fun c d => c.1 < d.1) ∧ ∀ c ∈ m, c.1 < memSize ∧ c.2 ≠ Memory.unlisted c.1

/-- The byte at an address of the 4096-byte space. -/
def Memory.lookup : Memory → Nat → Byte
  | [], a => Memory.unlisted a
  | (b, v) :: m, a => if a = b then v else lookup m a

/-- Put a byte before a memory whose listed addresses are all above `a`. -/
def Memory.putFirst (a : Nat) (v : Byte) (m : Memory) : Memory :=
  if v = Memory.unlisted a then m else (a, v) :: m

/-- Set the byte at an address of the 4096-byte space, keeping the canonical form. -/
def Memory.insert : Memory → Nat → Byte → Memory
  | [], a, v => Memory.putFirst a v []
  | (b, w) :: m, a, v =>
    if a < b then Memory.putFirst a v ((b, w) :: m)
    else if a = b then Memory.putFirst a v m
    else (b, w) :: insert m a v

/-- `MemRead(addr, 1)`: the byte `mem[addr mod 4096]`; it never fails (R51, R52). -/
def Memory.read (m : Memory) (addr : Nat) : Byte := m.lookup (addr % memSize)

/-- `MemWrite(addr, 1, v)`: `mem[addr mod 4096] <- v` and nothing else; it never fails (R51, R52). -/
def Memory.write (m : Memory) (addr : Nat) (v : Byte) : Memory := m.insert (addr % memSize) v

/-- One-byte writes at consecutive addresses, the first at `addr`, each address masked for itself (R51, R59). -/
def Memory.writeBytes (m : Memory) (addr : Nat) : List Byte → Memory
  | [] => m
  | v :: vs => writeBytes (m.write addr v) (addr + 1) vs

/-- One-byte reads at the `n` consecutive addresses from `addr`, each address masked for itself (R51, R59). -/
def Memory.readBytes (m : Memory) (addr n : Nat) : List Byte :=
  (List.range n).map (fun k => m.read (addr + k))

/-- `MemRead(addr, 2)`, the fetch alone: the byte at the lower address is the high byte (R56). -/
def Memory.readWord (m : Memory) (addr : Nat) : Word := wordOfBytes (m.read addr) (m.read (addr + 1))

/-! ### Registers -/

/-- `V[x]` (R21). -/
def Chip.reg (c : Chip) (x : RegIdx) : Byte := c.v[x.val]

/-- `V[x] <- b` (R21). -/
def Chip.setReg (c : Chip) (x : RegIdx) (b : Byte) : Chip := { c with v := c.v.set x.val b }

/-- The number of the flag register VF (R22). -/
def vf : RegIdx := 15

/-- The registers V0 to Vx, in ascending order (R164, R165). -/
def regsUpTo (x : RegIdx) : List RegIdx := (List.range (x.val + 1)).map (Fin.ofNat 16)

/-- `V[0] <- bs[0]`, `V[1] <- bs[1]` and so on, for as many registers as there are bytes (R165). -/
def Chip.setRegs (c : Chip) (rs : List RegIdx) (bs : List Byte) : Chip :=
  (rs.zip bs).foldl (fun c' rb => c'.setReg rb.1 rb.2) c

/-- `I <- w` (R23). -/
def Chip.setI (c : Chip) (w : Word) : Chip := { c with i := w }

/-- `dt <- b` (R27). -/
def Chip.setDt (c : Chip) (b : Byte) : Chip := { c with dt := b }

/-- `MemWrite` at consecutive addresses (R60). -/
def Chip.store (c : Chip) (addr : Nat) (bs : List Byte) : Chip := { c with mem := c.mem.writeBytes addr bs }

/-! ### The program counter (R103); arithmetic is modulo 65536 -/

/-- `pc <- target` (the classes absolute and indexed). -/
def Chip.setPc (c : Chip) (w : Word) : Chip := { c with pc := w }

/-- The default advance, `pc <- pc + 2`. -/
def Chip.advance (c : Chip) : Chip := c.setPc (c.pc + 2)

/-- The conditional skip: pc + 4 if the condition holds, else pc + 2; the skipped word is not examined. -/
def Chip.skipIf (c : Chip) (cond : Bool) : Chip := c.setPc (if cond then c.pc + 4 else c.pc + 2)

/-! ### The call stack -/

/-- The value of slot k, none when there is no such slot (R25). -/
def Chip.slot? (c : Chip) (k : Nat) : Option Word := c.stack[k]?

/-- `stack[sp] <- w; sp <- sp + 1`, for sp below 16 (R122). -/
def Chip.push (c : Chip) (w : Word) : Chip :=
  { c with stack := c.stack.setIfInBounds c.sp.toNat w, sp := c.sp + 1 }

/-- `sp <- sp − 1`; the slot keeps its value (R25, R120). -/
def Chip.drop (c : Chip) : Chip := { c with sp := c.sp - 1 }

/-! ### The fetch -/

/-- The instruction word at pc: two one-byte reads, each address masked, the first byte high (R101). -/
def Chip.fetch (c : Chip) : Word := c.mem.readWord c.pc.toNat

/-! ### How a cycle ends -/

/-- The state a cycle leaves: the core it computed and its result code on the output port (R104). -/
def State.finish (s : State) (c : Chip) (r : Result) : State := { s with chip := c, result := some r }

/-- The instruction executed fully: result OK (R104). -/
def complete (s : State) (c : Chip) : StepOutcome := .next (s.finish c .ok)

/-- Executed fully, with the default advance of pc (R103). -/
def completeNext (s : State) (c : Chip) : StepOutcome := complete s c.advance

/-- `raise`: the cycle ends at once with this code, "with every piece of state exactly as it was when the cycle
began"; nothing is saved and control goes nowhere (R219). There is no return from it (R220). A cycle that waits ends
in the same way with WAIT_KEY (R192). -/
def raise (r : Result) (s : State) : StepOutcome := .next (s.finish s.chip r)

/-- The unknown opcode: pc + 2, no other state changes, the word is reported (R105, R214). -/
def takeUnknownOpcode (op : Word) (s : State) : StepOutcome :=
  .next (s.finish s.chip.advance (.unknownOpcode op))

end Sys2Proof.Machine
end

