-- ==== Sys2Proof/Machine/Operands.lean ====
section
/-! DEFINITION. The operand forms of `30_encoding.md` rule R83 and of the instruction rules that name an implicit
operand: register, immediate, address, the masked key index (R196), the lowest key down (R192), the decimal digits
(R163) and the sprite's pixels (R181). All operands are read from the pre-state (R107). -/

namespace Sys2Proof.Machine

/-- `zext_16` of an 8-bit operand (R8). -/
def zext16 (b : Byte) : Word := b.setWidth 16

/-- "An address operand is `nnn` as it stands, zero-extended to 16 bits when it is written to pc or I" (R83). -/
def addrOperand (nnn : Addr) : Word := nnn.setWidth 16

/-- The key an 8-bit register names: "the index used is the low four bits" (R196). -/
def keyIndex (b : Byte) : Fin 16 := (b.extractLsb' 0 4).toFin

/-- `key[k]` (R196). -/
def keyDown (key : Keypad) (k : Fin 16) : Bool := key[k.val]

/-- The sixteen key indices, ascending. -/
def allKeys : List (Fin 16) := (List.range 16).map (Fin.ofNat 16)

/-- "the least k in 0 .. 15 with key[k] true", none when no key is down (R192). -/
def lowestKeyDown (key : Keypad) : Option (Fin 16) := allKeys.find? (keyDown key)

/-- `zext_8` of a key index (R192). -/
def keyByte (k : Fin 16) : Byte := BitVec.ofNat 8 k.val

/-- The three decimal digits of a byte, hundreds, tens, ones, each as a whole byte (R163). -/
def decimalDigits (b : Byte) : List Byte :=
  [ BitVec.ofNat 8 (b.toNat / 100), BitVec.ofNat 8 (b.toNat / 10 % 10), BitVec.ofNat 8 (b.toNat % 10) ]

/-- Sprite bit of column c (0 to 7) of a row: bit 7 − c, most significant first (R181, R182). -/
def spriteBit (row : Byte) (c : Nat) : Bool := row.getLsbD (7 - c)

/-- One sprite pixel: the cell it falls on and its bit. -/
structure Pixel where
  px : Fin 64
  py : Fin 32
  bit : Bool
deriving DecidableEq, Repr

/-- The pixel of column c of sprite row r: `px = (x0 + c) mod 64`, `py = (y0 + r) mod 32` (R181). -/
def pixelAt (x0 y0 row : Byte) (r c : Nat) : Pixel where
  px := Fin.ofNat 64 (x0.toNat + c)
  py := Fin.ofNat 32 (y0.toNat + r)
  bit := spriteBit row c

/-- All 8n pixels of a sprite, row by row, column by column (R181). -/
def spritePixels (x0 y0 : Byte) (rows : List Byte) : List Pixel :=
  rows.zipIdx.flatMap (fun rowr => (List.range 8).map (fun c => pixelAt x0 y0 rowr.1 rowr.2 c))

end Sys2Proof.Machine
end

