-- ==== Sys2Proof/Machine/Flags.lean ====
section
/-! DEFINITION. The flag computations: VF is the machine's only flag and every instruction that writes it as a flag
writes exactly 0x00 or 0x01 (`10_state.md` rule R22). -/

namespace Sys2Proof.Machine

/-- A flag value: exactly 0x00 or 0x01 (R22). -/
def flagByte (b : Bool) : Byte := if b then 0x01 else 0x00

/-- Carry of 8xy4: the un-truncated sum exceeds 255 (R146). -/
def carryOut (a b : Byte) : Byte := flagByte (decide (a.toNat + b.toNat > 255))

/-- The flag of 8xy5 and 8xy7 for `a − b`: 1 if a > b, strictly, else 0 (R147, R149, C9). -/
def strictlyGreater (a b : Byte) : Byte := flagByte (decide (a.toNat > b.toNat))

/-- The bit 8xy6 shifts out: bit 0 (R148). -/
def shiftedOutRight (a : Byte) : Byte := flagByte (a.getLsbD 0)

/-- The bit 8xyE shifts out: bit 7, normalised (R150). -/
def shiftedOutLeft (a : Byte) : Byte := flagByte (a.getLsbD 7)

/-- The two writes of 8xy4, 8xy5, 8xy6, 8xy7 and 8xyE: the result first, the flag last, so that the flag stands when
x = 15 (R108). -/
def Chip.setResultAndFlag (c : Chip) (x : RegIdx) (result flag : Byte) : Chip := (c.setReg x result).setReg vf flag

end Sys2Proof.Machine
end

