-- ==== Sys2Proof/Machine/Alu.lean ====
section
/-! DEFINITION. Register load, arithmetic, logic, shift and random: 6xkk, 7xkk, 8xy0 to 8xy7, 8xyE, Cxkk
(`42_alu.md`). Each ends with the default advance and raises no error. -/

namespace Sys2Proof.Machine

/-- 6xkk, LD Vx, kk (R140). -/
def execLdImm (x : RegIdx) (kk : Byte) (s : State) : StepOutcome := completeNext s (s.chip.setReg x kk)

/-- 7xkk, ADD Vx, kk (R141): no flag. -/
def execAddImm (x : RegIdx) (kk : Byte) (s : State) : StepOutcome :=
  completeNext s (s.chip.setReg x (s.chip.reg x + kk))

/-- 8xy0, LD Vx, Vy (R142). -/
def execLdReg (x y : RegIdx) (s : State) : StepOutcome := completeNext s (s.chip.setReg x (s.chip.reg y))

/-- 8xy1, OR Vx, Vy (R143): no flag. -/
def execOrReg (x y : RegIdx) (s : State) : StepOutcome :=
  completeNext s (s.chip.setReg x (s.chip.reg x ||| s.chip.reg y))

/-- 8xy2, AND Vx, Vy (R144): no flag. -/
def execAndReg (x y : RegIdx) (s : State) : StepOutcome :=
  completeNext s (s.chip.setReg x (s.chip.reg x &&& s.chip.reg y))

/-- 8xy3, XOR Vx, Vy (R145): no flag. -/
def execXorReg (x y : RegIdx) (s : State) : StepOutcome :=
  completeNext s (s.chip.setReg x (s.chip.reg x ^^^ s.chip.reg y))

/-- 8xy4, ADD Vx, Vy (R146). -/
def execAddReg (x y : RegIdx) (s : State) : StepOutcome :=
  completeNext s (s.chip.setResultAndFlag x (s.chip.reg x + s.chip.reg y) (carryOut (s.chip.reg x) (s.chip.reg y)))

/-- 8xy5, SUB Vx, Vy (R147). -/
def execSubReg (x y : RegIdx) (s : State) : StepOutcome :=
  completeNext s
    (s.chip.setResultAndFlag x (s.chip.reg x - s.chip.reg y) (strictlyGreater (s.chip.reg x) (s.chip.reg y)))

/-- 8xy6, SHR Vx (R148): the operand is Vx; y is ignored (R88). -/
def execShr (x _y : RegIdx) (s : State) : StepOutcome :=
  completeNext s (s.chip.setResultAndFlag x (s.chip.reg x >>> 1) (shiftedOutRight (s.chip.reg x)))

/-- 8xy7, SUBN Vx, Vy (R149). -/
def execSubnReg (x y : RegIdx) (s : State) : StepOutcome :=
  completeNext s
    (s.chip.setResultAndFlag x (s.chip.reg y - s.chip.reg x) (strictlyGreater (s.chip.reg y) (s.chip.reg x)))

/-- 8xyE, SHL Vx (R150): the operand is Vx; y is ignored (R88). -/
def execShl (x _y : RegIdx) (s : State) : StepOutcome :=
  completeNext s (s.chip.setResultAndFlag x (s.chip.reg x <<< 1) (shiftedOutLeft (s.chip.reg x)))

/-- Cxkk, RND Vx, kk (R151): the cycle's random input, masked. -/
def execRnd (x : RegIdx) (kk : Byte) (s : State) : StepOutcome := completeNext s (s.chip.setReg x (s.rnd &&& kk))

end Sys2Proof.Machine
end

