-- ==== Sys2Proof/Machine/Control.lean ====
section
/-! DEFINITION. Control transfer: 00EE, 1nnn, 2nnn, 3xkk, 4xkk, 5xy0, 9xy0, Bnnn (`41_control.md`). -/

namespace Sys2Proof.Machine

/-- 00EE, RET (R120): StackUnderflow at sp = 0; else pop, and pc becomes the popped address plus 2. -/
def execRet (s : State) : StepOutcome :=
  if s.chip.sp = 0 then raise .stackUnderflow s
  else match s.chip.slot? (s.chip.sp.toNat - 1) with
    | some a => complete s (s.chip.drop.setPc (a + 2))
    | none => .fault .illegalStackPointer

/-- 1nnn, JP nnn (R121). -/
def execJp (nnn : Addr) (s : State) : StepOutcome := complete s (s.chip.setPc (addrOperand nnn))

/-- 2nnn, CALL nnn (R122): StackOverflow at sp = 16; else push this instruction's own address and jump. -/
def execCall (nnn : Addr) (s : State) : StepOutcome :=
  if s.chip.sp = 16 then raise .stackOverflow s
  else if s.chip.sp.toNat < stackDepth then complete s ((s.chip.push s.chip.pc).setPc (addrOperand nnn))
  else .fault .illegalStackPointer

/-- 3xkk, SE Vx, kk (R123). -/
def execSeImm (x : RegIdx) (kk : Byte) (s : State) : StepOutcome :=
  complete s (s.chip.skipIf (s.chip.reg x == kk))

/-- 4xkk, SNE Vx, kk (R124). -/
def execSneImm (x : RegIdx) (kk : Byte) (s : State) : StepOutcome :=
  complete s (s.chip.skipIf (s.chip.reg x != kk))

/-- 5xy0, SE Vx, Vy (R125). -/
def execSeReg (x y : RegIdx) (s : State) : StepOutcome :=
  complete s (s.chip.skipIf (s.chip.reg x == s.chip.reg y))

/-- 9xy0, SNE Vx, Vy (R126). -/
def execSneReg (x y : RegIdx) (s : State) : StepOutcome :=
  complete s (s.chip.skipIf (s.chip.reg x != s.chip.reg y))

/-- Bnnn, JP V0, nnn (R127): the whole 16-bit sum is stored. -/
def execJpV0 (nnn : Addr) (s : State) : StepOutcome :=
  complete s (s.chip.setPc (addrOperand nnn + zext16 (s.chip.reg 0)))

end Sys2Proof.Machine
end

