-- ==== Sys2Proof/Machine/Display.lean ====
section
/-! DEFINITION. The framebuffer and the display instructions 00E0 and Dxyn (`44_display.md`). -/

namespace Sys2Proof.Machine

/-- `fb[x][y]` (R182). -/
def cellAt (fb : Framebuffer) (px : Fin 64) (py : Fin 32) : Bool := fb[px.val][py.val]

/-- `fb[x][y] <- b` (R182). -/
def setCell (fb : Framebuffer) (px : Fin 64) (py : Fin 32) (b : Bool) : Framebuffer :=
  fb.set px.val (fb[px.val].set py.val b)

/-- Every cell false (R180). -/
def blankFb : Framebuffer := Vector.replicate 64 (Vector.replicate 32 false)

/-- Draw one pixel on the framebuffer drawn so far: "pixel = old XOR sprite-bit; collision = old AND sprite-bit,
OR-accumulated", `old` the cell of the pre-state (R107, R181). -/
def plot (old : Framebuffer) (acc : Framebuffer × Bool) (p : Pixel) : Framebuffer × Bool :=
  (setCell acc.1 p.px p.py (cellAt old p.px p.py ^^ p.bit), acc.2 || (cellAt old p.px p.py && p.bit))

/-- The framebuffer and the collision bit after the sprite's pixels are drawn in order (R181). -/
def drawPixels (fb : Framebuffer) (ps : List Pixel) : Framebuffer × Bool := ps.foldl (plot fb) (fb, false)

/-- The n sprite bytes, from I on (R181). -/
def Chip.sprite (c : Chip) (n : Fin 16) : List Byte := c.mem.readBytes c.i.toNat n.val

/-- `fb <- f` (R182). -/
def Chip.setFb (c : Chip) (f : Framebuffer) : Chip := { c with fb := f }

/-- 00E0, CLS (R180). -/
def execCls (s : State) : StepOutcome := completeNext s (s.chip.setFb blankFb)

/-- Dxyn, DRW Vx, Vy, n (R181): the sprite's pixels, each wrapped by its own modulus, XORed in; VF = collision. -/
def execDrw (x y : RegIdx) (n : Fin 16) (s : State) : StepOutcome :=
  let drawn := drawPixels s.chip.fb (spritePixels (s.chip.reg x) (s.chip.reg y) (s.chip.sprite n))
  completeNext s ((s.chip.setFb drawn.1).setReg vf (flagByte drawn.2))

end Sys2Proof.Machine
end

