-- ==== Sys2Proof/Machine/IndexMemory.lean ====
section
/-! DEFINITION. Index register and memory instructions: Annn, Fx1E, Fx29, Fx33, Fx55, Fx65
(`43_index_memory.md`). Each ends with the default advance, raises no error and writes no flag; the three that go
through I leave I unchanged (R166). -/

namespace Sys2Proof.Machine

/-- Annn, LD I, nnn (R160). -/
def execLdI (nnn : Addr) (s : State) : StepOutcome := completeNext s (s.chip.setI (addrOperand nnn))

/-- Fx1E, ADD I, Vx (R161): modulo 65536, no flag. -/
def execAddI (x : RegIdx) (s : State) : StepOutcome :=
  completeNext s (s.chip.setI (s.chip.i + zext16 (s.chip.reg x)))

/-- Fx29, LD F, Vx (R162): all eight bits of Vx are used. -/
def execLdF (x : RegIdx) (s : State) : StepOutcome := completeNext s (s.chip.setI (zext16 (s.chip.reg x) * 5))

/-- Fx33, LD B, Vx (R163): hundreds, tens, ones at I, I + 1, I + 2. -/
def execLdB (x : RegIdx) (s : State) : StepOutcome :=
  completeNext s (s.chip.store s.chip.i.toNat (decimalDigits (s.chip.reg x)))

/-- Fx55, LD [I], Vx (R164): V0 to Vx at I, I + 1, up to I + x. -/
def execStoreRegs (x : RegIdx) (s : State) : StepOutcome :=
  completeNext s (s.chip.store s.chip.i.toNat ((regsUpTo x).map s.chip.reg))

/-- Fx65, LD Vx, [I] (R165): V0 to Vx from I, I + 1, up to I + x. -/
def execLoadRegs (x : RegIdx) (s : State) : StepOutcome :=
  completeNext s (s.chip.setRegs (regsUpTo x) (s.chip.mem.readBytes s.chip.i.toNat (x.val + 1)))

end Sys2Proof.Machine
end

