-- ==== Sys2Proof/Machine/KeypadTimer.lean ====
section
/-! DEFINITION. Keypad and timer instructions: Ex9E, ExA1, Fx0A, Fx07, Fx15, Fx18 (`45_keypad_timer.md`), and the
delay timer's decrement unit (`60_exceptions.md` rule R222). -/

namespace Sys2Proof.Machine

/-- Ex9E, SKP Vx (R190). -/
def execSkp (x : RegIdx) (s : State) : StepOutcome :=
  complete s (s.chip.skipIf (keyDown s.key (keyIndex (s.chip.reg x))))

/-- ExA1, SKNP Vx (R191). -/
def execSknp (x : RegIdx) (s : State) : StepOutcome :=
  complete s (s.chip.skipIf (!keyDown s.key (keyIndex (s.chip.reg x))))

/-- How Fx0A ends, given the lowest key down: wait when there is none, else its index goes to Vx (R192). -/
def State.afterKeyWait (s : State) (x : RegIdx) : Option (Fin 16) → State
  | some k => s.finish (s.chip.setReg x (keyByte k)).advance .ok
  | none => s.finish s.chip .waitKey

/-- Fx0A, LD Vx, K (R192): with no key down nothing changes and the result is WAIT_KEY, so the next cycle fetches
this instruction again; with a key down it completes in this cycle. -/
def execLdVxK (x : RegIdx) (s : State) : StepOutcome := .next (s.afterKeyWait x (lowestKeyDown s.key))

/-- Fx07, LD Vx, DT (R193). -/
def execLdVxDt (x : RegIdx) (s : State) : StepOutcome := completeNext s (s.chip.setReg x s.chip.dt)

/-- Fx15, LD DT, Vx (R194). -/
def execLdDtVx (x : RegIdx) (s : State) : StepOutcome := completeNext s (s.chip.setDt (s.chip.reg x))

/-- Fx18, LD ST, Vx (R195): there is no sound timer; only pc changes. -/
def execLdStVx (_x : RegIdx) (s : State) : StepOutcome := completeNext s s.chip

/-- The delay timer after one TimerTick: "if dt > 0: dt <- dt − 1" (R222). -/
def tickDown (d : Byte) : Byte := if d = 0 then 0 else d - 1

/-- `TimerTick()`: only dt changes; no result (R222). -/
def Chip.timerTick (c : Chip) : Chip := c.setDt (tickDown c.dt)

/-- The delay timer after n TimerTicks in a row: n lower, floored at 0 (R222). -/
def tickDownBy (n : Nat) (d : Byte) : Byte := if d = 0 then 0 else BitVec.ofNat 8 (d.toNat - n)

/-- n TimerTicks in a row. -/
def Chip.timerTicks (n : Nat) (c : Chip) : Chip := c.setDt (tickDownBy n c.dt)

end Sys2Proof.Machine
end

