-- ==== Sys2Proof/Machine/Cycle.lean ====
section
/-! DEFINITION. The operations the host starts (`00_scope.md` rule R4): `Cycle` (`40_cycle.md` rule R100),
`TimerTick` (`60_exceptions.md` rule R222) and `Reset` (`70_reset_and_hazards.md` rules R240 to R242), and what the
host does when the state lists no operation (log entries 1 to 5). -/

namespace Sys2Proof.Machine

/-! ### Cycle -/

/-- Put the cycle's inputs on the ports: they are sampled once, when the cycle begins (R106). -/
def State.present (s : State) (key : Keypad) (rnd : Byte) : State := { s with key := key, rnd := rnd }

/-- Fetch, decode, execute: one instruction, the inputs already on the ports (R100). A word that matches no row is
the unknown opcode (R105). -/
def cycle (s : State) : StepOutcome :=
  match decodeWord s.chip.fetch with
  | .ok i => exec i s
  | .error _ => takeUnknownOpcode s.chip.fetch s

/-- The operation `Cycle(key, rnd)` of R100. -/
def cycleOp (key : Keypad) (rnd : Byte) (s : State) : StepOutcome := cycle (s.present key rnd)

/-! ### TimerTick -/

/-- The operation `TimerTick()`: the ports and the result of the last cycle stay as they are (R222). -/
def State.timerTick (s : State) : State := { s with chip := s.chip.timerTick }

/-- n TimerTicks in a row. -/
def State.timerTicks (n : Nat) (s : State) : State := { s with chip := s.chip.timerTicks n }

/-! ### Reset -/

/-- The result code of Reset (R211). -/
inductive ResetResult where
  | resetOk
  | romTooLarge (len : Nat)
deriving DecidableEq, Repr

/-- The result code of `Reset(rom)`: ROM_TOO_LARGE with the length above 3584 bytes, else RESET_OK (R240, R242). -/
def resetResult (rom : List Byte) : ResetResult :=
  if rom.length > romMax then .romTooLarge rom.length else .resetOk

/-- The memory image after Reset: FONT at 0x000, the ROM at 0x200, zero everywhere else (R241). An unlisted address
above the font already reads as zero, and all 80 font bytes are written. -/
def memoryImage (font : Font) (rom : List Byte) : Memory :=
  (Memory.writeBytes [] 0x000 font.toList).writeBytes progBase rom

/-- The core `Reset(rom)` creates, none when the ROM is too large (R240, R242). -/
def resetChip (font : Font) (rom : List Byte) : Option Chip :=
  if rom.length > romMax then none else some { Chip.reset with mem := memoryImage font rom }

/-- The operation `Reset(rom)` with the parameter FONT: it re-creates all of the core, keeping no earlier value, and
leaves no last result code (R34, R240); a ROM that is too large leaves no state at all (R242). -/
def resetOp (font : Font) (rom : List Byte) (s : State) : StepOutcome :=
  match resetChip font rom with
  | some c => .next { s with chip := c, result := none }
  | none => .fault (.romTooLarge rom.length)

/-! ### The numbers of the result codes (R211) -/

/-- The number of a cycle's result code. -/
def Result.code : Result → Nat
  | .ok => 0
  | .waitKey => 1
  | .unknownOpcode _ => 2
  | .stackOverflow => 3
  | .stackUnderflow => 4

/-- The number of Reset's result code. -/
def ResetResult.code : ResetResult → Nat
  | .resetOk => 0
  | .romTooLarge _ => 5

/-! ### The host -/

/-- Start one host operation (R4). -/
def runOp : HostOp → State → StepOutcome
  | .cycle key rnd, s => cycleOp key rnd s
  | .timerTick, s => .next s.timerTick
  | .reset font rom, s => resetOp font rom s

/-- Keep a next state with its timer ticked n times; a fault or a refusal stays as it is. -/
def thenTicks (n : Nat) : StepOutcome → StepOutcome
  | .next t => .next (t.timerTicks n)
  | .fault r => .fault r
  | .refused r => .refused r

/-- The host with no operation listed: a cycle with free inputs, then a free number of TimerTicks (R31, R222; log
entries 2, 3, 4). -/
def freeRun (s : State) : StepOutcome :=
  thenTicks (Config.freeTicks s.turn)
    (cycleOp (Config.freeKeys s.turn) (Config.freeRandom s.turn) { s with turn := s.turn + 1 })

/-- The reference driver loop of R244 as a list of host operations: each frame one Cycle, then one TimerTick. -/
def referenceLoop (inputs : List (Keypad × Byte)) : List HostOp :=
  inputs.flatMap (fun kr => [.cycle kr.1 kr.2, .timerTick])

/-- Is this host operation a cycle? -/
def HostOp.isCycle : HostOp → Bool
  | .cycle _ _ => true
  | .timerTick => false
  | .reset _ _ => false

/-- A word stored at pc, where the fetch of R101 reads it, its high byte first. -/
def Chip.placeAtPc (c : Chip) (op : Word) : Chip := c.store c.pc.toNat (bytesOfWord op)

/-- The state whose next operation is a cycle that fetches this word: the host operations before the next listed
cycle are left out. -/
def State.placeWord (s : State) (op : Word) : State :=
  { s with chip := s.chip.placeAtPc op, host := s.host.dropWhile (fun o => !o.isCycle) }

end Sys2Proof.Machine
end

