-- ==== Sys2Proof/Machine/Step.lean ====
section
/-! DEFINITION. One step of the machine: the host starts its next operation, and that operation runs whole, since
operations are atomic and never overlap (`00_scope.md` rule R4, `40_cycle.md` rule R106; log entry 1). -/

namespace Sys2Proof.Machine

/-- The next operation listed, or the host's free one when none is listed. -/
def step (s : State) : Host.Outcome State Fault Refusal :=
  match s.host with
  | op :: rest => runOp op { s with host := rest }
  | [] => freeRun s

/-- `s` with an instruction word stored where the next step fetches it. -/
def State.withFetchWord (s : State) (nbits w : Nat) : State := s.placeWord (tableWord nbits w)

end Sys2Proof.Machine
end

