-- ==== Sys2Proof/Safety.lean ====
section
/-! DEFINITION. What counts as a good state, a safe run and a finished program. -/

namespace Sys2Proof.Machine

/-- The invariant of the core: "0 ≤ sp ≤ 16" (R26, R35), and memory is in its canonical form. -/
def Chip.Inv (c : Chip) : Prop := c.sp.toNat ≤ stackDepth ∧ c.mem.wf

/-- The invariant of the machine. -/
def State.Inv (s : State) : Prop := s.chip.Inv

/-- The two result codes that are fatal: "a fault that is never a final state of a correct run" (R211, R220). -/
def Result.isFatal : Result → Bool
  | .stackOverflow => true
  | .stackUnderflow => true
  | .ok => false
  | .waitKey => false
  | .unknownOpcode _ => false

/-- An error is "a result code other than OK and WAIT_KEY" (R11). -/
def Result.isError : Result → Bool
  | .ok => false
  | .waitKey => false
  | .unknownOpcode _ => true
  | .stackOverflow => true
  | .stackUnderflow => true

/-- The last cycle reported no error: "a claim that a program runs without error has to exclude it by name" (R214). -/
def State.Unerring (s : State) : Prop := ∀ r, s.result = some r → r.isError = false

/-- A safe run of k steps: every state on the way exists and its last cycle reported no error. -/
def SafeRun (k : Nat) (s : State) : Prop :=
  ∀ j, j ≤ k → ∃ t, Host.Core.run Sys2Proof.core j s = .next t ∧ State.Unerring t

/-- A program is finished at a fixed point of Cycle with result OK, whatever the inputs (R248). -/
def State.Finished (s : State) : Prop :=
  ∀ (key : Keypad) (rnd : Byte), ∃ t, cycleOp key rnd s = .next t ∧ t.chip = s.chip ∧ t.result = some .ok

/-- The next host operation is a Reset whose ROM is too large: the one operation that leaves no state (R242). -/
def State.RomTooLargeNext (s : State) : Prop :=
  ∃ font rom rest, s.host = .reset font rom :: rest ∧ rom.length > romMax

end Sys2Proof.Machine
end

