-- ==== Sys2Proof/Certificates/Slice0/Obligations.lean ====
section
/-! DEFINITION. The statements for the provers, from the numbered rules of the spec. First the words they share: what
is kept, and how a cycle ended. Memory is compared through reads of one byte. -/

namespace Sys2Proof.Machine

/-! ### What is kept -/

/-- Every register outside `written` keeps its value. -/
def KeepsRegs (written : RegIdx → Prop) (s t : State) : Prop := ∀ r, ¬ written r → t.chip.reg r = s.chip.reg r

/-- I keeps its value. -/
def KeepsI (s t : State) : Prop := t.chip.i = s.chip.i

/-- The stack pointer and all sixteen slots keep their values. -/
def KeepsStack (s t : State) : Prop := t.chip.sp = s.chip.sp ∧ t.chip.stack = s.chip.stack

/-- The delay timer keeps its value. -/
def KeepsDt (s t : State) : Prop := t.chip.dt = s.chip.dt

/-- Every cell of the framebuffer keeps its value. -/
def KeepsFb (s t : State) : Prop := t.chip.fb = s.chip.fb

/-- Every byte of memory reads as before. -/
def KeepsMem (s t : State) : Prop := ∀ a, t.chip.mem.read a = s.chip.mem.read a

/-- Every byte of memory outside the n bytes from I on, each address masked for itself, reads as before. -/
def KeepsMemOutside (n : Nat) (s t : State) : Prop :=
  ∀ a, a < memSize → (∀ k, k < n → a ≠ (s.chip.i.toNat + k) % memSize) → t.chip.mem.read a = s.chip.mem.read a

/-- pc advances by 2, modulo 65536. -/
def NextPc (s t : State) : Prop := t.chip.pc.toNat = (s.chip.pc.toNat + 2) % 65536

/-- The cycle ended with this result code, and the input ports and the host's operations are as they were. -/
def EndsWith (r : Result) (s t : State) : Prop :=
  t.result = some r ∧ t.key = s.key ∧ t.rnd = s.rnd ∧ t.host = s.host ∧ t.turn = s.turn

/-- The frame of an instruction that changes registers and pc alone, and ends OK. -/
def RegFrame (written : RegIdx → Prop) (s t : State) : Prop :=
  KeepsRegs written s t ∧ KeepsI s t ∧ KeepsStack s t ∧ KeepsDt s t ∧ KeepsFb s t ∧ KeepsMem s t ∧ EndsWith .ok s t

/-- The frame of an instruction that changes pc alone, and ends OK. -/
def PcFrame (s t : State) : Prop := RegFrame (fun _ => False) s t

/-- The frame of an instruction that changes I and pc alone, and ends OK. -/
def IndexFrame (s t : State) : Prop :=
  KeepsRegs (fun _ => False) s t ∧ KeepsStack s t ∧ KeepsDt s t ∧ KeepsFb s t ∧ KeepsMem s t ∧ EndsWith .ok s t

/-- The frame of an instruction that stores n bytes from I on, changes pc, and ends OK. -/
def StoreFrame (n : Nat) (s t : State) : Prop :=
  KeepsRegs (fun _ => False) s t ∧ KeepsI s t ∧ KeepsStack s t ∧ KeepsDt s t ∧ KeepsFb s t ∧
    KeepsMemOutside n s t ∧ EndsWith .ok s t

/-- The core is wholly as it was; the cycle ended with this code. -/
def NothingChanges (r : Result) (s t : State) : Prop := t.chip = s.chip ∧ EndsWith r s t

/-! ### Which instruction may write what -/

/-- The registers an instruction may write: its destination, and VF for the writers of R22's table. -/
def Written : Instr → RegIdx → Prop
  | .ldImm x _, r | .addImm x _, r | .ldReg x _, r | .orReg x _, r | .andReg x _, r | .xorReg x _, r => r = x
  | .rnd x _, r | .ldVxDt x, r | .ldVxK x, r => r = x
  | .addReg x _, r | .subReg x _, r | .shr x _, r | .subnReg x _, r | .shl x _, r => r = x ∨ r = vf
  | .drw _ _ _, r => r = vf
  | .loadRegs x, r => r ≤ x
  | .cls, _ | .ret, _ | .jp _, _ | .call _, _ | .seImm _ _, _ | .sneImm _ _, _ | .seReg _ _, _ | .sneReg _ _, _ => False
  | .ldI _, _ | .jpV0 _, _ | .skp _, _ | .sknp _, _ | .ldDtVx _, _ | .ldStVx _, _ | .addI _, _ | .ldF _, _ => False
  | .ldB _, _ | .storeRegs _, _ => False

/-- The six instructions of R22's table, which write VF as a flag. -/
def WritesFlag (i : Instr) : Prop :=
  (∃ x y, i = .addReg x y ∨ i = .subReg x y ∨ i = .shr x y ∨ i = .subnReg x y ∨ i = .shl x y) ∨ ∃ x y n, i = .drw x y n

/-- A state whose next cycle can only end in this stack error (R212, R213). -/
def StackErrorAt (r : Result) (s : State) : Prop :=
  (r = .stackOverflow ∧ s.chip.sp = 16 ∧ ∃ nnn, decodeWord s.chip.fetch = .ok (.call nnn)) ∨
  (r = .stackUnderflow ∧ s.chip.sp = 0 ∧ decodeWord s.chip.fetch = .ok .ret)

/-- The host has no Reset listed. -/
def NoReset (s : State) : Prop := ∀ font rom, HostOp.reset font rom ∉ s.host

/-- Apply a change to the next state of an outcome. -/
def onNext (f : State → State) : StepOutcome → StepOutcome
  | .next t => .next (f t)
  | .fault r => .fault r
  | .refused r => .refused r

end Sys2Proof.Machine

open Sys2Proof Sys2Proof.Machine

/-! ### Encoding -/

/-- A few words written out from the patterns of R85, one or more of each format, decode to their instructions. -/
def Obligations.SampleWordsDecode : Prop :=
  decodeWord 0x00E0 = .ok .cls ∧ decodeWord 0x00EE = .ok .ret ∧ decodeWord 0x1ABC = .ok (.jp 0xABC) ∧
  decodeWord 0x6A42 = .ok (.ldImm 10 0x42) ∧ decodeWord 0x8AB4 = .ok (.addReg 10 11) ∧
  decodeWord 0x9AB0 = .ok (.sneReg 10 11) ∧ decodeWord 0xD5A7 = .ok (.drw 5 10 7) ∧
  decodeWord 0xE29E = .ok (.skp 2) ∧ decodeWord 0xF165 = .ok (.loadRegs 1) ∧
  decodeWord 0x5AB1 = .error (.unknownOpcode 0x5AB1)

/-- Decoding the bytes of an encoded instruction gives that instruction, with every operand, and the bytes after it. -/
def Obligations.DecodeOfEncode : Prop :=
  ∀ (i : Instr) (rest : List Byte), decodeBytes (bytesOfWord (encode i) ++ rest) = .ok (i, rest)

/-- Each word has one meaning: a word that decodes is the encoding of what it decodes to, so no bit of it is dropped
(the ignored fields y of 8xy6 and 8xyE and x of Fx18 among them). -/
def Obligations.EncodeOfDecode : Prop :=
  ∀ (op : Word) (i : Instr), decodeWord op = .ok i → encode i = op

/-- R91: a word decodes exactly when its family's literal digits match; every other word is an unknown opcode
(exact match is the spec's own choice D26). -/
def Obligations.DecodesExactlyTheWellFormedWords : Prop :=
  ∀ op : Word,
    (wellFormedWord op = true → ∃ i, decodeWord op = .ok i) ∧
    (wellFormedWord op = false → decodeWord op = .error (.unknownOpcode op))

/-- R86: the 34 patterns are pairwise disjoint. -/
def Obligations.OpcodeRowsAreDisjoint : Prop :=
  opcodeMap.length = 34 ∧
  opcodeMap.Pairwise (fun r q => ∀ op : Word, ¬ (r.matchesWord op = true ∧ q.matchesWord op = true))

/-- R102: a word that matches a row's mask and pattern decodes to that row's instruction, with the fields of the word. -/
def Obligations.EveryRowDecodesItsWords : Prop :=
  ∀ (r : Row) (op : Word), r ∈ opcodeMap → op &&& r.mask = r.pat → decodeWord op = .ok (r.build (fieldsOf op))

/-! ### The cycle -/

/-- R101, R56: the fetch reads the bytes at pc and pc + 1, each masked (the spec's own choice D3), the first byte high; it
never fails. -/
def Obligations.FetchIsBigEndianAndMasked : Prop :=
  ∀ c : Chip,
    c.fetch.extractLsb' 8 8 = c.mem.lookup (c.pc.toNat % 4096) ∧
    c.fetch.extractLsb' 0 8 = c.mem.lookup ((c.pc.toNat + 1) % 4096)

/-- A step whose next operation is a cycle runs the instruction the bytes at pc decode to, with the cycle's inputs on
the ports; with no operation listed the inputs are the free ones and a free number of timer ticks follows (log
entries 1 to 4: the list of operations is the model's). -/
def Obligations.StepRunsDecodedInstruction : Prop :=
  ∀ (s : State) (i : Instr),
    decodeWord (wordOfBytes (s.chip.mem.read s.chip.pc.toNat) (s.chip.mem.read (s.chip.pc.toNat + 1))) = .ok i →
    (∀ key rnd rest, s.host = .cycle key rnd :: rest →
      step s = exec i { s with host := rest, key := key, rnd := rnd }) ∧
    (s.host = [] →
      step s = thenTicks (Config.freeTicks s.turn)
        (exec i { s with turn := s.turn + 1, key := Config.freeKeys s.turn, rnd := Config.freeRandom s.turn }))

/-- A word placed by `withFetchWord`, the model's own stand-in for a load (log entry 5), is the word the next step's
cycle fetches: the state's next host operation is a cycle, or none is listed (log entry 1), and the fetch at pc reads
the word. -/
def Obligations.PlacedWordIsFetched : Prop :=
  ∀ (s : State) (op : Word), s.Inv →
    (s.withFetchWord 16 op.toNat).chip.fetch = op ∧
    ((s.withFetchWord 16 op.toNat).host = [] ∨
      ∃ key rnd rest, (s.withFetchWord 16 op.toNat).host = .cycle key rnd :: rest)

/-- R105: when the fetched word matches no row, pc advances by 2, nothing else of the core changes, and the result is
UNKNOWN_OPCODE with the word (the spec's own choice D7). -/
def Obligations.UnknownOpcodeIsReportedAndSkipped : Prop :=
  ∀ (s : State) (key : Keypad) (rnd : Byte), (∀ r ∈ opcodeMap, r.matchesWord s.chip.fetch = false) →
    ∃ t, cycleOp key rnd s = .next t ∧ NextPc s t ∧ t.chip = { s.chip with pc := t.chip.pc } ∧
      t.result = some (.unknownOpcode s.chip.fetch) ∧ t.host = s.host

/-! ### Control transfer -/

/-- R121: JP lands on nnn; nothing else changes. -/
def Obligations.JumpLandsOnItsTarget : Prop :=
  ∀ (s : State) (nnn : Addr), ∃ t, exec (.jp nnn) s = .next t ∧ t.chip.pc.toNat = nnn.toNat ∧ PcFrame s t

/-- R127: JP V0 lands on nnn + V0, the whole sum (the spec's own choice D3); nothing else changes. -/
def Obligations.IndexedJumpStoresTheWholeSum : Prop :=
  ∀ (s : State) (nnn : Addr), ∃ t, exec (.jpV0 nnn) s = .next t ∧
    t.chip.pc.toNat = nnn.toNat + (s.chip.reg 0).toNat ∧ PcFrame s t

/-- R122: CALL at sp = 16 changes nothing and reports STACK_OVERFLOW; below 16 it stores its own address in slot sp,
increments sp and lands exactly on nnn (the spec's own choices D6 and D12). -/
def Obligations.CallPushesItsOwnAddress : Prop :=
  ∀ (s : State) (nnn : Addr),
    (s.chip.sp = 16 → ∃ t, exec (.call nnn) s = .next t ∧ NothingChanges .stackOverflow s t) ∧
    (s.chip.sp.toNat < 16 → ∃ t, exec (.call nnn) s = .next t ∧
      t.chip.stack[s.chip.sp.toNat]? = some s.chip.pc ∧
      (∀ k, k ≠ s.chip.sp.toNat → t.chip.stack[k]? = s.chip.stack[k]?) ∧
      t.chip.sp.toNat = s.chip.sp.toNat + 1 ∧ t.chip.pc.toNat = nnn.toNat ∧
      KeepsRegs (fun _ => False) s t ∧ KeepsI s t ∧ KeepsDt s t ∧ KeepsFb s t ∧ KeepsMem s t ∧ EndsWith .ok s t)

/-- R120: RET at sp = 0 changes nothing and reports STACK_UNDERFLOW; else sp is decremented and pc becomes the value of
the slot it then points at, plus 2; the slot is not cleared (the spec's own choices D6, D12 and D22). -/
def Obligations.RetReturnsPastTheCall : Prop :=
  ∀ s : State,
    (s.chip.sp = 0 → ∃ t, exec .ret s = .next t ∧ NothingChanges .stackUnderflow s t) ∧
    (∀ a : Word, 0 < s.chip.sp.toNat → s.chip.stack[s.chip.sp.toNat - 1]? = some a →
      ∃ t, exec .ret s = .next t ∧ t.chip.sp.toNat = s.chip.sp.toNat - 1 ∧
        t.chip.pc.toNat = (a.toNat + 2) % 65536 ∧ t.chip.stack = s.chip.stack ∧
        KeepsRegs (fun _ => False) s t ∧ KeepsI s t ∧ KeepsDt s t ∧ KeepsFb s t ∧ KeepsMem s t ∧ EndsWith .ok s t)

/-- A CALL and then a RET, whatever ran between them so long as it left sp and the slots as the CALL did, goes on at
the instruction after the CALL, with sp as it was (§8 of the source, X5). -/
def Obligations.CallThenRetResumesAfterTheCall : Prop :=
  ∀ (s t u : State) (nnn : Addr), s.chip.sp.toNat < 16 → exec (.call nnn) s = .next t → KeepsStack t u →
    ∃ w, exec .ret u = .next w ∧ NextPc s w ∧ w.chip.sp = s.chip.sp ∧ KeepsRegs (fun _ => False) u w

/-- R123, R124, R125, R126: each compare-and-skip advances pc by 4 when its condition holds, else by 2, and changes
nothing else. -/
def Obligations.SkipsAdvanceByFourOrTwo : Prop :=
  ∀ (s : State) (x y : RegIdx) (kk : Byte),
    (∃ t, exec (.seImm x kk) s = .next t ∧ PcFrame s t ∧
      t.chip.pc.toNat = (s.chip.pc.toNat + if s.chip.reg x = kk then 4 else 2) % 65536) ∧
    (∃ t, exec (.sneImm x kk) s = .next t ∧ PcFrame s t ∧
      t.chip.pc.toNat = (s.chip.pc.toNat + if s.chip.reg x = kk then 2 else 4) % 65536) ∧
    (∃ t, exec (.seReg x y) s = .next t ∧ PcFrame s t ∧
      t.chip.pc.toNat = (s.chip.pc.toNat + if s.chip.reg x = s.chip.reg y then 4 else 2) % 65536) ∧
    (∃ t, exec (.sneReg x y) s = .next t ∧ PcFrame s t ∧
      t.chip.pc.toNat = (s.chip.pc.toNat + if s.chip.reg x = s.chip.reg y then 2 else 4) % 65536)

/-! ### Register load, arithmetic, logic, shift, random -/

/-- R140, R142, R143, R144, R145: the loads and the bitwise operations write Vx alone; no flag. -/
def Obligations.LoadsAndLogicWriteVxAlone : Prop :=
  ∀ (s : State) (x y : RegIdx) (kk : Byte),
    (∃ t, exec (.ldImm x kk) s = .next t ∧ t.chip.reg x = kk ∧ NextPc s t ∧ RegFrame (· = x) s t) ∧
    (∃ t, exec (.ldReg x y) s = .next t ∧ t.chip.reg x = s.chip.reg y ∧ NextPc s t ∧ RegFrame (· = x) s t) ∧
    (∃ t, exec (.orReg x y) s = .next t ∧ NextPc s t ∧ RegFrame (· = x) s t ∧
      ∀ j, (t.chip.reg x).getLsbD j = ((s.chip.reg x).getLsbD j || (s.chip.reg y).getLsbD j)) ∧
    (∃ t, exec (.andReg x y) s = .next t ∧ NextPc s t ∧ RegFrame (· = x) s t ∧
      ∀ j, (t.chip.reg x).getLsbD j = ((s.chip.reg x).getLsbD j && (s.chip.reg y).getLsbD j)) ∧
    (∃ t, exec (.xorReg x y) s = .next t ∧ NextPc s t ∧ RegFrame (· = x) s t ∧
      ∀ j, (t.chip.reg x).getLsbD j = ((s.chip.reg x).getLsbD j ^^ (s.chip.reg y).getLsbD j))

/-- R141: 7xkk adds modulo 256 and sets no flag, unless VF is its destination. -/
def Obligations.AddImmediateWrapsWithoutFlag : Prop :=
  ∀ (s : State) (x : RegIdx) (kk : Byte), ∃ t, exec (.addImm x kk) s = .next t ∧
    (t.chip.reg x).toNat = ((s.chip.reg x).toNat + kk.toNat) % 256 ∧ NextPc s t ∧ RegFrame (· = x) s t

/-- R146: 8xy4 writes the sum modulo 256 and VF = 1 iff the un-truncated sum of the pre-state values exceeds 255; with
x = 15 the flag is what VF holds (the spec's own choice D11). -/
def Obligations.AddRegistersSetsCarry : Prop :=
  ∀ (s : State) (x y : RegIdx), ∃ t, exec (.addReg x y) s = .next t ∧
    (t.chip.reg 15).toNat = (if (s.chip.reg x).toNat + (s.chip.reg y).toNat > 255 then 1 else 0) ∧
    (x ≠ 15 → (t.chip.reg x).toNat = ((s.chip.reg x).toNat + (s.chip.reg y).toNat) % 256) ∧
    NextPc s t ∧ RegFrame (fun r => r = x ∨ r = 15) s t

/-- R147, R149: 8xy5 and 8xy7 write the difference modulo 256 and VF = 1 iff the minuend is strictly greater; with
x = 15 the flag is what VF holds (the spec's own choice D11). -/
def Obligations.SubtractionsSetNoBorrowStrictly : Prop :=
  ∀ (s : State) (x y : RegIdx),
    (∃ t, exec (.subReg x y) s = .next t ∧
      (t.chip.reg 15).toNat = (if (s.chip.reg x).toNat > (s.chip.reg y).toNat then 1 else 0) ∧
      (x ≠ 15 → (t.chip.reg x).toNat = ((s.chip.reg x).toNat + 256 - (s.chip.reg y).toNat) % 256) ∧
      NextPc s t ∧ RegFrame (fun r => r = x ∨ r = 15) s t) ∧
    (∃ t, exec (.subnReg x y) s = .next t ∧
      (t.chip.reg 15).toNat = (if (s.chip.reg y).toNat > (s.chip.reg x).toNat then 1 else 0) ∧
      (x ≠ 15 → (t.chip.reg x).toNat = ((s.chip.reg y).toNat + 256 - (s.chip.reg x).toNat) % 256) ∧
      NextPc s t ∧ RegFrame (fun r => r = x ∨ r = 15) s t)

/-- R148, R150: 8xy6 halves and 8xyE doubles Vx, VF is the bit shifted out as 0 or 1, and y is ignored; with x = 15 the
flag is what VF holds (the spec's own choice D11). -/
def Obligations.ShiftsMoveOneBit : Prop :=
  ∀ (s : State) (x y : RegIdx),
    (∃ t, exec (.shr x y) s = .next t ∧ (t.chip.reg 15).toNat = (s.chip.reg x).toNat % 2 ∧
      (x ≠ 15 → (t.chip.reg x).toNat = (s.chip.reg x).toNat / 2) ∧
      NextPc s t ∧ RegFrame (fun r => r = x ∨ r = 15) s t) ∧
    (∃ t, exec (.shl x y) s = .next t ∧ (t.chip.reg 15).toNat = (s.chip.reg x).toNat / 128 ∧
      (x ≠ 15 → (t.chip.reg x).toNat = (s.chip.reg x).toNat * 2 % 256) ∧
      NextPc s t ∧ RegFrame (fun r => r = x ∨ r = 15) s t)

/-- R151: Cxkk writes the cycle's random input masked by kk, whatever the input is (the spec's own choice D15). -/
def Obligations.RandomByteIsMasked : Prop :=
  ∀ (s : State) (x : RegIdx) (kk : Byte), ∃ t, exec (.rnd x kk) s = .next t ∧
    (∀ j, (t.chip.reg x).getLsbD j = (s.rnd.getLsbD j && kk.getLsbD j)) ∧ NextPc s t ∧ RegFrame (· = x) s t

/-! ### Index register and memory -/

/-- R160, R161: Annn loads nnn, Fx1E adds Vx modulo 65536 with no flag. -/
def Obligations.IndexRegisterResults : Prop :=
  ∀ (s : State) (x : RegIdx) (nnn : Addr),
    (∃ t, exec (.ldI nnn) s = .next t ∧ t.chip.i.toNat = nnn.toNat ∧ NextPc s t ∧ IndexFrame s t) ∧
    (∃ t, exec (.addI x) s = .next t ∧ t.chip.i.toNat = (s.chip.i.toNat + (s.chip.reg x).toNat) % 65536 ∧
      NextPc s t ∧ IndexFrame s t)

/-- R162: Fx29 writes Vx times 5 to I, all eight bits of Vx used (the spec's own choice D17). -/
def Obligations.GlyphAddressIsFiveTimesVx : Prop :=
  ∀ (s : State) (x : RegIdx), ∃ t, exec (.ldF x) s = .next t ∧ t.chip.i.toNat = (s.chip.reg x).toNat * 5 ∧
    NextPc s t ∧ IndexFrame s t

/-- R163: Fx33 stores the hundreds, tens and ones of Vx at I, I + 1 and I + 2, each address masked, and changes no
other byte. -/
def Obligations.BcdStoresThreeDigits : Prop :=
  ∀ (s : State) (x : RegIdx), s.Inv → ∃ t, exec (.ldB x) s = .next t ∧
    (t.chip.mem.read s.chip.i.toNat).toNat = (s.chip.reg x).toNat / 100 ∧
    (t.chip.mem.read (s.chip.i.toNat + 1)).toNat = (s.chip.reg x).toNat / 10 % 10 ∧
    (t.chip.mem.read (s.chip.i.toNat + 2)).toNat = (s.chip.reg x).toNat % 10 ∧
    NextPc s t ∧ StoreFrame 3 s t

/-- R164: Fx55 stores V0 to Vx at I to I + x, each address masked, and changes no other byte. -/
def Obligations.RegisterStoreIsAscending : Prop :=
  ∀ (s : State) (x : RegIdx), s.Inv → ∃ t, exec (.storeRegs x) s = .next t ∧
    (∀ r, r ≤ x → t.chip.mem.read (s.chip.i.toNat + r.val) = s.chip.reg r) ∧
    NextPc s t ∧ StoreFrame (x.val + 1) s t

/-- R165: Fx65 loads V0 to Vx from I to I + x, each address masked; the registers above x keep their values. -/
def Obligations.RegisterLoadIsAscending : Prop :=
  ∀ (s : State) (x : RegIdx), ∃ t, exec (.loadRegs x) s = .next t ∧
    (∀ r, r ≤ x → t.chip.reg r = s.chip.mem.read (s.chip.i.toNat + r.val)) ∧
    NextPc s t ∧ RegFrame (· ≤ x) s t

/-- R65: an Fx55 that stores from the next instruction word on (x at least 1) is what the next cycle fetches. That store
and fetch mask their addresses alike is the spec's own choices D2 and D3. -/
def Obligations.StoreIsSeenByTheNextFetch : Prop :=
  ∀ (s : State) (x : RegIdx), s.Inv → 1 ≤ x.val → s.chip.i.toNat % 4096 = (s.chip.pc.toNat + 2) % 4096 →
    ∃ t, exec (.storeRegs x) s = .next t ∧ t.chip.fetch = wordOfBytes (s.chip.reg 0) (s.chip.reg 1)

/-- R52: a write sets the byte at its masked address and changes nothing else; a read masks its address too. -/
def Obligations.WriteThenReadMasksAddresses : Prop :=
  ∀ (m : Memory) (a b : Nat) (v : Byte), m.wf →
    (m.write a v).read b = if a % 4096 = b % 4096 then v else m.read b

/-- Two memories in the canonical form that read alike at every address are equal data (the model's own form: log
entry 9). -/
def Obligations.EqualReadsAreEqualMemories : Prop :=
  ∀ m n : Memory, m.wf → n.wf → (∀ a, a < 4096 → m.read a = n.read a) → m = n

/-! ### Display -/

/-- R180: 00E0 clears every cell; VF and everything else but pc are not changed. -/
def Obligations.ClsClearsEveryCell : Prop :=
  ∀ s : State, ∃ t, exec .cls s = .next t ∧ (∀ px py, cellAt t.chip.fb px py = false) ∧ NextPc s t ∧
    KeepsRegs (fun _ => False) s t ∧ KeepsI s t ∧ KeepsStack s t ∧ KeepsDt s t ∧ KeepsMem s t ∧ EndsWith .ok s t

/-- R181: Dxyn XORs pixel (c, r), bit 7 − c of the byte at I + r, into the cell ((Vx + c) mod 64, (Vy + r) mod 32) of
the pre-state, touches no other cell, and writes VF = 1 iff some set cell had a set sprite bit, else 0.
Nothing is clipped (the spec's own choice D20). -/
def Obligations.DrawXorsEveryPixel : Prop :=
  ∀ (s : State) (x y : RegIdx) (n : Fin 16), ∃ t, exec (.drw x y n) s = .next t ∧
    (∀ r c, r < n.val → c < 8 →
      cellAt t.chip.fb (Fin.ofNat 64 ((s.chip.reg x).toNat + c)) (Fin.ofNat 32 ((s.chip.reg y).toNat + r)) =
        (cellAt s.chip.fb (Fin.ofNat 64 ((s.chip.reg x).toNat + c)) (Fin.ofNat 32 ((s.chip.reg y).toNat + r)) ^^
          (s.chip.mem.read (s.chip.i.toNat + r)).getLsbD (7 - c))) ∧
    (∀ px py, (∀ r c, r < n.val → c < 8 → ¬ (px = Fin.ofNat 64 ((s.chip.reg x).toNat + c) ∧
        py = Fin.ofNat 32 ((s.chip.reg y).toNat + r))) → cellAt t.chip.fb px py = cellAt s.chip.fb px py) ∧
    ((∃ r c, r < n.val ∧ c < 8 ∧
        cellAt s.chip.fb (Fin.ofNat 64 ((s.chip.reg x).toNat + c)) (Fin.ofNat 32 ((s.chip.reg y).toNat + r)) = true ∧
        (s.chip.mem.read (s.chip.i.toNat + r)).getLsbD (7 - c) = true) → t.chip.reg 15 = 1) ∧
    ((∀ r c, r < n.val → c < 8 →
        (cellAt s.chip.fb (Fin.ofNat 64 ((s.chip.reg x).toNat + c)) (Fin.ofNat 32 ((s.chip.reg y).toNat + r)) &&
          (s.chip.mem.read (s.chip.i.toNat + r)).getLsbD (7 - c)) = false) → t.chip.reg 15 = 0) ∧
    NextPc s t ∧ KeepsRegs (· = 15) s t ∧ KeepsI s t ∧ KeepsStack s t ∧ KeepsDt s t ∧ KeepsMem s t ∧ EndsWith .ok s t

/-- R183: no cell is drawn twice by one instruction, and the order in which the pixels are processed cannot change the
framebuffer or the collision bit (the spec marks it as its own inference). -/
def Obligations.PixelOrderCannotMatter : Prop :=
  ∀ (fb : Framebuffer) (x0 y0 : Byte) (rows : List Byte) (ps : List Pixel), rows.length ≤ 15 →
    ps.Perm (spritePixels x0 y0 rows) →
    ps.Pairwise (fun p q => ¬ (p.px = q.px ∧ p.py = q.py)) ∧ drawPixels fb ps = drawPixels fb (spritePixels x0 y0 rows)

/-! ### Keypad and timer -/

/-- R190, R191, R196: SKP and SKNP test the key named by the low four bits of Vx (the spec's own choice D10)
and skip when it is, or is not, pressed; nothing else changes. -/
def Obligations.KeySkipsTestTheLowNibble : Prop :=
  ∀ (s : State) (x : RegIdx),
    (∃ t, exec (.skp x) s = .next t ∧ PcFrame s t ∧ t.chip.pc.toNat =
      (s.chip.pc.toNat + if keyDown s.key (Fin.ofNat 16 ((s.chip.reg x).toNat % 16)) then 4 else 2) % 65536) ∧
    (∃ t, exec (.sknp x) s = .next t ∧ PcFrame s t ∧ t.chip.pc.toNat =
      (s.chip.pc.toNat + if keyDown s.key (Fin.ofNat 16 ((s.chip.reg x).toNat % 16)) then 2 else 4) % 65536)

/-- R192: with no key down Fx0A changes nothing and reports WAIT_KEY; else the least pressed index goes to Vx and pc
advances (the spec's own choice D9). -/
def Obligations.KeyWaitTakesTheLowestKey : Prop :=
  ∀ (s : State) (x : RegIdx),
    ((∀ k, keyDown s.key k = false) → ∃ t, exec (.ldVxK x) s = .next t ∧ NothingChanges .waitKey s t) ∧
    (∀ k, keyDown s.key k = true → (∀ j, j < k → keyDown s.key j = false) →
      ∃ t, exec (.ldVxK x) s = .next t ∧ (t.chip.reg x).toNat = k.val ∧ NextPc s t ∧ RegFrame (· = x) s t)

/-- R193, R194, R195: Fx07 reads the timer, Fx15 writes it, Fx18 changes nothing but pc. -/
def Obligations.TimerInstructionResults : Prop :=
  ∀ (s : State) (x : RegIdx),
    (∃ t, exec (.ldVxDt x) s = .next t ∧ t.chip.reg x = s.chip.dt ∧ NextPc s t ∧ RegFrame (· = x) s t) ∧
    (∃ t, exec (.ldDtVx x) s = .next t ∧ t.chip.dt = s.chip.reg x ∧ NextPc s t ∧
      KeepsRegs (fun _ => False) s t ∧ KeepsI s t ∧ KeepsStack s t ∧ KeepsFb s t ∧ KeepsMem s t ∧ EndsWith .ok s t) ∧
    (∃ t, exec (.ldStVx x) s = .next t ∧ NextPc s t ∧ PcFrame s t)

/-- R222: a TimerTick lowers dt by one unless it is zero; it never fails, has no result and touches nothing else. -/
def Obligations.TimerTickFloorsAtZero : Prop :=
  ∀ (s : State) (rest : List HostOp), s.host = .timerTick :: rest →
    ∃ t, step s = .next t ∧ t.chip.dt.toNat = s.chip.dt.toNat - 1 ∧ t.chip = { s.chip with dt := t.chip.dt } ∧
      t.result = s.result ∧ t.key = s.key ∧ t.rnd = s.rnd ∧ t.host = rest ∧ t.turn = s.turn

/-- An unlisted host is a listed one: the step with nothing listed gives what listing one cycle with those inputs and
then that many TimerTicks gives, but for the count of unlisted cycles (log entry 1). -/
def Obligations.UnlistedHostIsAListedOne : Prop :=
  ∀ s t : State, s.host = [] → step s = .next t →
    Host.Core.run Sys2Proof.core (Config.freeTicks s.turn + 1)
      { s with host := .cycle (Config.freeKeys s.turn) (Config.freeRandom s.turn) ::
          List.replicate (Config.freeTicks s.turn) .timerTick } = .next { t with turn := s.turn }

/-- X7: while no key is down an Fx0A stays where it is, over any number of cycles; the first cycle with a key down
completes it. That it completes in that same cycle, and with the least pressed index, is the spec's own choice D9. -/
def Obligations.KeyWaitRepeatsUntilAKeyIsDown : Prop :=
  ∀ (s : State) (x : RegIdx) (inputs : List (Keypad × Byte)) (key : Keypad) (rnd : Byte) (k : Fin 16),
    decodeWord s.chip.fetch = .ok (.ldVxK x) → s.host = inputs.map (fun kr => .cycle kr.1 kr.2) ++ [.cycle key rnd] →
    (∀ kr ∈ inputs, ∀ j, keyDown kr.1 j = false) → keyDown key k = true → (∀ j, j < k → keyDown key j = false) →
    (∃ t, Host.Core.run Sys2Proof.core inputs.length s = .next t ∧ t.chip = s.chip ∧
      (inputs ≠ [] → t.result = some .waitKey)) ∧
    (∃ u, Host.Core.run Sys2Proof.core (inputs.length + 1) s = .next u ∧ (u.chip.reg x).toNat = k.val ∧ NextPc s u ∧
      u.result = some .ok)

/-! ### Reset -/

/-- The state after reset: the values of R34. The model's choices: the FONT is its default table (log entry 8) and the ROM
is the empty one (log entry 5). Zero from 0x200 to 0xFFF is the spec's own choice D14. -/
def Obligations.ResetStateHoldsTheTableOfValues : Prop :=
  (∀ r, State.reset.chip.reg r = 0) ∧ State.reset.chip.i = 0 ∧ State.reset.chip.pc = 0x200 ∧
  State.reset.chip.sp = 0 ∧ State.reset.chip.dt = 0 ∧ (∀ k, k < 16 → State.reset.chip.stack[k]? = some 0) ∧
  (∀ px py, cellAt State.reset.chip.fb px py = false) ∧ State.reset.result = none ∧
  (∀ k (h : k < 80), State.reset.chip.mem.read k = defaultFont[k]) ∧
  (∀ a, 80 ≤ a → a < 4096 → State.reset.chip.mem.read a = 0)

/-- R240, R241: a Reset whose ROM fits makes every register, slot, timer and cell zero, pc 0x200, and memory the FONT,
the ROM at 0x200 and zeros; whatever the state before, which leaves no trace in the core
(the spec's own choices D14 and D27). -/
def Obligations.ResetLoadsFontAndRom : Prop :=
  ∀ (font : Font) (rom : List Byte) (s : State), rom.length ≤ 3584 →
    resetResult rom = .resetOk ∧
    ∃ t, runOp (.reset font rom) s = .next t ∧
      (∀ k (h : k < 80), t.chip.mem.read k = font[k]) ∧
      (∀ a, 0x50 ≤ a → a < 0x200 → t.chip.mem.read a = 0) ∧
      (∀ k (h : k < rom.length), t.chip.mem.read (0x200 + k) = rom[k]) ∧
      (∀ a, 0x200 + rom.length ≤ a → a < 4096 → t.chip.mem.read a = 0) ∧
      (∀ r, t.chip.reg r = 0) ∧ t.chip.i = 0 ∧ t.chip.pc = 0x200 ∧ t.chip.sp = 0 ∧ t.chip.dt = 0 ∧
      (∀ k, k < 16 → t.chip.stack[k]? = some 0) ∧ (∀ px py, cellAt t.chip.fb px py = false) ∧ t.result = none ∧
      ∀ s' : State, ∃ t', runOp (.reset font rom) s' = .next t' ∧ t'.chip = t.chip

/-- R242: a Reset with a ROM above 3584 bytes reports ROM_TOO_LARGE with its length and leaves no state
(the spec's own choices D8 and D27). -/
def Obligations.RomTooLargeLeavesNoState : Prop :=
  ∀ (font : Font) (rom : List Byte) (s : State) (rest : List HostOp), s.host = .reset font rom :: rest →
    3584 < rom.length →
    resetResult rom = .romTooLarge rom.length ∧ step s = .fault (.romTooLarge rom.length)

/-! ### The whole machine -/

/-- The invariant holds at reset: sp is at most 16 and memory is in its canonical form. -/
def Obligations.InvariantHoldsAtReset : Prop := State.reset.Inv

/-- Every step keeps the invariant: sp never leaves 0 to 16 and memory keeps its canonical form. -/
def Obligations.EveryStepKeepsTheInvariant : Prop := ∀ s t : State, s.Inv → step s = .next t → t.Inv

/-- From a state that meets the invariant every step has a next state, but for a Reset whose ROM is too large: no
instruction, operand, address or input stops the machine (R227). That stack errors, WAIT_KEY and unknown words are next
states is log entry 10, that a ROM too large is a fault is log entry 11 (both DEDUCED); that no address is out of range
is the spec's own choice D2. -/
def Obligations.NoStepStopsButATooLargeRom : Prop :=
  ∀ s : State, s.Inv → ¬ s.RomTooLargeNext → ∃ t, step s = .next t

/-- An instruction writes no register but its destinations and, for R22's six, VF; and those six leave VF 0 or 1, with
x = 15 too (the spec's own choice D11). -/
def Obligations.OnlyDestinationsAndFlagsAreWritten : Prop :=
  ∀ (i : Instr) (s t : State), exec i s = .next t →
    KeepsRegs (Written i) s t ∧ (WritesFlag i → t.chip.reg 15 = 0 ∨ t.chip.reg 15 = 1)

/-- Only 2nnn and 00EE change sp, and only 2nnn changes a slot (R25, R26). -/
def Obligations.OnlyCallAndRetMoveTheStack : Prop :=
  ∀ (i : Instr) (s t : State), exec i s = .next t →
    ((∀ nnn, i ≠ .call nnn) → t.chip.stack = s.chip.stack) ∧
    ((∀ nnn, i ≠ .call nnn) → i ≠ .ret → t.chip.sp = s.chip.sp)

/-- Only Annn, Fx1E and Fx29 change I: Fx33, Fx55, Fx65 and Dxyn leave it as it was (R23, R166; the spec's own
choice D18). -/
def Obligations.OnlyThreeInstructionsWriteI : Prop :=
  ∀ (i : Instr) (s t : State), exec i s = .next t →
    (∀ nnn, i ≠ .ldI nnn) → (∀ x, i ≠ .addI x) → (∀ x, i ≠ .ldF x) → KeepsI s t

/-- Only Fx33 and Fx55 change memory, only 00E0 and Dxyn change the framebuffer, and only Fx15 changes the timer: a
cycle never ticks it (R20, R29, R50, R100). -/
def Obligations.OnlyTheirWritersTouchMemoryDisplayTimer : Prop :=
  ∀ (i : Instr) (s t : State), exec i s = .next t →
    ((∀ x, i ≠ .ldB x) → (∀ x, i ≠ .storeRegs x) → KeepsMem s t) ∧
    (i ≠ .cls → (∀ x y n, i ≠ .drw x y n) → KeepsFb s t) ∧
    ((∀ x, i ≠ .ldDtVx x) → KeepsDt s t)

/-- Every instruction that is no jump, call or return moves pc by 2 or 4, or is Fx0A and holds it; only a stack error
or WAIT_KEY holds pc (R103). -/
def Obligations.PcAdvancesUnlessTransferred : Prop :=
  ∀ (i : Instr) (s t : State), exec i s = .next t →
    (∀ nnn, i ≠ .jp nnn) → (∀ nnn, i ≠ .jpV0 nnn) → (∀ nnn, i ≠ .call nnn) → i ≠ .ret →
    NextPc s t ∨ t.chip.pc.toNat = (s.chip.pc.toNat + 4) % 65536 ∨
      (t.chip.pc = s.chip.pc ∧ t.result = some .waitKey)

/-- Only 2nnn, 00EE and Fx0A can end with a code other than OK, each with its own, and then nothing changes (R218,
R219, R227). That nothing changes is the spec's own choices D6 and D9; that the codes are next states is log entry 10
(DEDUCED). -/
def Obligations.OnlyThreeInstructionsReportACode : Prop :=
  ∀ (i : Instr) (s t : State), exec i s = .next t →
    EndsWith .ok s t ∨
    ((∃ nnn, i = .call nnn) ∧ s.chip.sp = 16 ∧ NothingChanges .stackOverflow s t) ∨
    (i = .ret ∧ s.chip.sp = 0 ∧ NothingChanges .stackUnderflow s t) ∨
    ((∃ x, i = .ldVxK x) ∧ (∀ k, keyDown s.key k = false) ∧ NothingChanges .waitKey s t)

/-- A cycle that does not execute Ex9E, ExA1 or Fx0A ignores `key`; one that does not execute Cxkk ignores `rnd`
(R106). -/
def Obligations.InputsReachOnlyTheirReaders : Prop :=
  ∀ (i : Instr) (s : State) (key : Keypad) (rnd : Byte),
    ((∀ x, i ≠ .skp x) → (∀ x, i ≠ .sknp x) → (∀ x, i ≠ .ldVxK x) →
      exec i { s with key := key } = onNext (fun t => { t with key := key }) (exec i s)) ∧
    ((∀ x kk, i ≠ .rnd x kk) →
      exec i { s with rnd := rnd } = onNext (fun t => { t with rnd := rnd }) (exec i s))

/-- A stack error recurs for ever: however many steps the host runs, and whatever their inputs and timer ticks, so
long as it lists no Reset, the core changes in dt alone and its next cycle reports the same code again (R212, R213,
R220, R222). The recurrence is the spec's own choice D6; the model's are that the codes are next states (log entry 10,
DEDUCED) and that no unlisted operation is a Reset (log entry 1). -/
def Obligations.StackErrorsRecurUntilReset : Prop :=
  ∀ (k : Nat) (r : Result) (s : State), StackErrorAt r s → NoReset s →
    ∃ t, Host.Core.run Sys2Proof.core k s = .next t ∧ t.chip = { s.chip with dt := t.chip.dt } ∧
      ∀ key rnd, ∃ u, cycleOp key rnd t = .next u ∧ NothingChanges r (t.present key rnd) u

/-- R248: a jump to itself is a fixed point of Cycle with result OK for every input. That a program is then called
finished is the spec's own choice D21, and that 1nnn at nnn is such a point the spec marks as its own inference. -/
def Obligations.JumpToItselfIsFinished : Prop :=
  ∀ (s : State) (nnn : Addr), decodeWord s.chip.fetch = .ok (.jp nnn) → s.chip.pc.toNat = nnn.toNat → s.Finished
end

