-- ==== Sys2Proof/Laws/Decode.lean ====
section
/-! SUPPORT. Words as numbers: what the masks of the opcode map keep, what the encoder's formats are, and what the
fields of a word are, each as arithmetic on the word's value, so that a question about an encoding is a linear one. -/

namespace Sys2Proof

/-! ### Masks -/

theorem toNat_and_F000 (op : Word) : (op &&& 0xF000#16).toNat = op.toNat / 4096 * 4096 := by
  have h : op &&& 0xF000#16 = (op >>> 12) <<< 12 := by
    ext i hi
    simp only [BitVec.getElem_and]
    interval_cases i <;> simp
  rw [h]
  simp only [BitVec.toNat_shiftLeft, BitVec.toNat_ushiftRight, Nat.shiftRight_eq_div_pow, Nat.shiftLeft_eq]
  have := op.isLt
  omega

theorem toNat_and_low (op : Word) (n : Nat) (hn : n ≤ 16) :
    (op &&& BitVec.ofNat 16 (2 ^ n - 1)).toNat = op.toNat % 2 ^ n := by
  have h : (2 ^ n - 1) % 2 ^ 16 = 2 ^ n - 1 :=
    Nat.mod_eq_of_lt (by have := Nat.pow_le_pow_right (show 0 < 2 by decide) hn; have := Nat.two_pow_pos n; omega)
  rw [BitVec.toNat_and, BitVec.toNat_ofNat, h, Nat.and_two_pow_sub_one_eq_mod]

/-- The two parts of a mask that fixes nibble 0 and low bits. -/
theorem toNat_and_split (op : Word) (n : Nat) (hn : n ≤ 12) :
    (op &&& (0xF000#16 ||| BitVec.ofNat 16 (2 ^ n - 1))).toNat = op.toNat / 4096 * 4096 + op.toNat % 2 ^ n := by
  have hlow := toNat_and_low op n (by omega)
  have hlt : op.toNat % 2 ^ n < 2 ^ 12 :=
    Nat.lt_of_lt_of_le (Nat.mod_lt _ (Nat.two_pow_pos n)) (Nat.pow_le_pow_right (by decide) hn)
  have hd : op &&& (0xF000#16 ||| BitVec.ofNat 16 (2 ^ n - 1))
      = (op &&& 0xF000#16) ||| (op &&& BitVec.ofNat 16 (2 ^ n - 1)) := by
    ext i hi
    simp only [BitVec.getElem_and, BitVec.getElem_or, Bool.and_or_distrib_left]
  rw [hd, BitVec.toNat_or, toNat_and_F000, hlow, show (4096 : Nat) = 2 ^ 12 from rfl, ← Nat.shiftLeft_eq,
    Nat.shiftLeft_add_eq_or_of_lt hlt]

theorem toNat_and_F00F (op : Word) : (op &&& 0xF00F#16).toNat = op.toNat / 4096 * 4096 + op.toNat % 16 :=
  toNat_and_split op 4 (by decide)

theorem toNat_and_F0FF (op : Word) : (op &&& 0xF0FF#16).toNat = op.toNat / 4096 * 4096 + op.toNat % 256 :=
  toNat_and_split op 8 (by decide)

/-- A row matches by the value of the masked word. -/
theorem Row.matchesWord_iff (r : Row) (op : Word) : r.matchesWord op = true ↔ (op &&& r.mask).toNat = r.pat.toNat := by
  rw [BitVec.toNat_inj]; exact beq_iff_eq

/-! ### Formats -/

theorem toNat_append_add {m n : Nat} (a : BitVec m) (b : BitVec n) :
    (a ++ b).toNat = a.toNat * 2 ^ n + b.toNat := by
  rw [BitVec.toNat_append, ← Nat.shiftLeft_add_eq_or_of_lt b.isLt, Nat.shiftLeft_eq]

@[simp] theorem toNat_ofNat4_fin (x : Fin 16) : (BitVec.ofNat 4 x.val).toNat = x.val := by
  rw [BitVec.toNat_ofNat]; exact Nat.mod_eq_of_lt x.isLt

theorem toNat_formatA (o : BitVec 4) (nnn : Addr) : (formatA o nnn).toNat = o.toNat * 4096 + nnn.toNat :=
  toNat_append_add o nnn

theorem toNat_formatXK (o : BitVec 4) (x : RegIdx) (kk : Byte) :
    (formatXK o x kk).toNat = o.toNat * 4096 + x.val * 256 + kk.toNat := by
  have h := toNat_append_add o (BitVec.ofNat 4 x.val)
  rw [toNat_ofNat4_fin] at h
  refine Eq.trans (toNat_append_add (o ++ BitVec.ofNat 4 x.val) kk) ?_
  rw [h]; omega

theorem toNat_formatXY (o : BitVec 4) (x y : RegIdx) (s : BitVec 4) :
    (formatXY o x y s).toNat = o.toNat * 4096 + x.val * 256 + y.val * 16 + s.toNat := by
  have h := toNat_append_add o (BitVec.ofNat 4 x.val)
  have h' := toNat_append_add (o ++ BitVec.ofNat 4 x.val) (BitVec.ofNat 4 y.val)
  rw [toNat_ofNat4_fin] at h h'
  refine Eq.trans (toNat_append_add (o ++ BitVec.ofNat 4 x.val ++ BitVec.ofNat 4 y.val) s) ?_
  rw [h', h]; omega

theorem toNat_wordOfBytes (a b : Byte) : (wordOfBytes a b).toNat = a.toNat * 256 + b.toNat :=
  toNat_append_add a b

/-- The bytes of a word make the word again. -/
theorem wordOfBytes_bytes (op : Word) : wordOfBytes (op.extractLsb' 8 8) (op.extractLsb' 0 8) = op := by
  apply BitVec.eq_of_toNat_eq
  have := op.isLt
  simp only [toNat_wordOfBytes, BitVec.extractLsb'_toNat, Nat.shiftRight_eq_div_pow]
  omega

/-! ### Fields -/

theorem fieldsOf_x (op : Word) : (fieldsOf op).x.val = op.toNat / 256 % 16 := by
  show (op.extractLsb' 8 4).toNat = _
  rw [BitVec.extractLsb'_toNat, Nat.shiftRight_eq_div_pow]

theorem fieldsOf_y (op : Word) : (fieldsOf op).y.val = op.toNat / 16 % 16 := by
  show (op.extractLsb' 4 4).toNat = _
  rw [BitVec.extractLsb'_toNat, Nat.shiftRight_eq_div_pow]

theorem fieldsOf_n (op : Word) : (fieldsOf op).n.val = op.toNat % 16 := by
  show (op.extractLsb' 0 4).toNat = _
  rw [BitVec.extractLsb'_toNat, Nat.shiftRight_eq_div_pow]
  omega

theorem fieldsOf_kk (op : Word) : (fieldsOf op).kk.toNat = op.toNat % 256 := by
  show (op.extractLsb' 0 8).toNat = _
  rw [BitVec.extractLsb'_toNat, Nat.shiftRight_eq_div_pow]
  omega

theorem fieldsOf_nnn (op : Word) : (fieldsOf op).nnn.toNat = op.toNat % 4096 := by
  show (op.extractLsb' 0 12).toNat = _
  rw [BitVec.extractLsb'_toNat, Nat.shiftRight_eq_div_pow]
  omega

/-! ### Fields of encoded words -/

theorem fieldsOf_formatA_nnn (o : BitVec 4) (nnn : Addr) : (fieldsOf (formatA o nnn)).nnn = nnn := by
  apply BitVec.eq_of_toNat_eq
  have := nnn.isLt
  rw [fieldsOf_nnn, toNat_formatA]; omega

theorem fieldsOf_formatXK_x (o : BitVec 4) (x : RegIdx) (kk : Byte) : (fieldsOf (formatXK o x kk)).x = x := by
  apply Fin.ext
  have := x.isLt; have := kk.isLt
  rw [fieldsOf_x, toNat_formatXK]; omega

theorem fieldsOf_formatXK_kk (o : BitVec 4) (x : RegIdx) (kk : Byte) : (fieldsOf (formatXK o x kk)).kk = kk := by
  apply BitVec.eq_of_toNat_eq
  have := kk.isLt
  rw [fieldsOf_kk, toNat_formatXK]; omega

theorem fieldsOf_formatXY_x (o : BitVec 4) (x y : RegIdx) (s : BitVec 4) : (fieldsOf (formatXY o x y s)).x = x := by
  apply Fin.ext
  have := x.isLt; have := y.isLt; have := s.isLt
  rw [fieldsOf_x, toNat_formatXY]; omega

theorem fieldsOf_formatXY_y (o : BitVec 4) (x y : RegIdx) (s : BitVec 4) : (fieldsOf (formatXY o x y s)).y = y := by
  apply Fin.ext
  have := y.isLt; have := s.isLt
  rw [fieldsOf_y, toNat_formatXY]; omega

theorem fieldsOf_formatXY_n (o : BitVec 4) (x y : RegIdx) (n : Fin 16) :
    (fieldsOf (formatXY o x y (BitVec.ofNat 4 n.val))).n = n := by
  apply Fin.ext
  have := n.isLt
  rw [fieldsOf_n, toNat_formatXY, toNat_ofNat4_fin]; omega

/-! ### When an encoded word matches a row of its format -/

theorem matches_formatA (o : BitVec 4) (nnn : Addr) (pat : Word) (b : Fields → Instr)
    (h : pat.toNat = o.toNat * 4096) : Row.matchesWord ⟨0xF000, pat, b⟩ (formatA o nnn) = true := by
  have := nnn.isLt
  rw [Row.matchesWord_iff]
  refine (toNat_and_F000 _).trans ?_
  rw [toNat_formatA, h]; omega

theorem matches_formatXK (o : BitVec 4) (x : RegIdx) (kk : Byte) (pat : Word) (b : Fields → Instr)
    (h : pat.toNat = o.toNat * 4096) : Row.matchesWord ⟨0xF000, pat, b⟩ (formatXK o x kk) = true := by
  have := x.isLt; have := kk.isLt
  rw [Row.matchesWord_iff]
  refine (toNat_and_F000 _).trans ?_
  rw [toNat_formatXK, h]; omega

theorem matches_formatXYN (o : BitVec 4) (x y : RegIdx) (n : BitVec 4) (pat : Word) (b : Fields → Instr)
    (h : pat.toNat = o.toNat * 4096) : Row.matchesWord ⟨0xF000, pat, b⟩ (formatXY o x y n) = true := by
  have := x.isLt; have := y.isLt; have := n.isLt
  rw [Row.matchesWord_iff]
  refine (toNat_and_F000 _).trans ?_
  rw [toNat_formatXY, h]; omega

theorem matches_formatXY (o : BitVec 4) (x y : RegIdx) (s : BitVec 4) (pat : Word) (b : Fields → Instr)
    (h : pat.toNat = o.toNat * 4096 + s.toNat) : Row.matchesWord ⟨0xF00F, pat, b⟩ (formatXY o x y s) = true := by
  have := x.isLt; have := y.isLt; have := s.isLt
  rw [Row.matchesWord_iff]
  refine (toNat_and_F00F _).trans ?_
  rw [toNat_formatXY, h]; omega

theorem matches_formatX (o : BitVec 4) (x : RegIdx) (s : Byte) (pat : Word) (b : Fields → Instr)
    (h : pat.toNat = o.toNat * 4096 + s.toNat) : Row.matchesWord ⟨0xF0FF, pat, b⟩ (formatX o x s) = true := by
  have := x.isLt; have := s.isLt
  rw [Row.matchesWord_iff]
  refine (toNat_and_F0FF _).trans ?_
  rw [formatX, toNat_formatXK, h]; omega

end Sys2Proof
end

