-- ==== Sys2Proof/Laws/State.lean ====
section
/-! SUPPORT. One lemma per field per update: what each update of the core, and of the state around it, does to each
field, so that no later proof unfolds a record update. Registers are read through `Chip.reg`, in Laws/Registers.lean. -/

namespace Sys2Proof.Machine

/-! ### Updates of the core -/

@[simp] theorem Chip.setReg_i (c : Chip) (x : RegIdx) (b : Byte) : (c.setReg x b).i = c.i := rfl
@[simp] theorem Chip.setReg_pc (c : Chip) (x : RegIdx) (b : Byte) : (c.setReg x b).pc = c.pc := rfl
@[simp] theorem Chip.setReg_stack (c : Chip) (x : RegIdx) (b : Byte) : (c.setReg x b).stack = c.stack := rfl
@[simp] theorem Chip.setReg_sp (c : Chip) (x : RegIdx) (b : Byte) : (c.setReg x b).sp = c.sp := rfl
@[simp] theorem Chip.setReg_dt (c : Chip) (x : RegIdx) (b : Byte) : (c.setReg x b).dt = c.dt := rfl
@[simp] theorem Chip.setReg_mem (c : Chip) (x : RegIdx) (b : Byte) : (c.setReg x b).mem = c.mem := rfl
@[simp] theorem Chip.setReg_fb (c : Chip) (x : RegIdx) (b : Byte) : (c.setReg x b).fb = c.fb := rfl

@[simp] theorem Chip.setI_v (c : Chip) (w : Word) : (c.setI w).v = c.v := rfl
@[simp] theorem Chip.setI_i (c : Chip) (w : Word) : (c.setI w).i = w := rfl
@[simp] theorem Chip.setI_pc (c : Chip) (w : Word) : (c.setI w).pc = c.pc := rfl
@[simp] theorem Chip.setI_stack (c : Chip) (w : Word) : (c.setI w).stack = c.stack := rfl
@[simp] theorem Chip.setI_sp (c : Chip) (w : Word) : (c.setI w).sp = c.sp := rfl
@[simp] theorem Chip.setI_dt (c : Chip) (w : Word) : (c.setI w).dt = c.dt := rfl
@[simp] theorem Chip.setI_mem (c : Chip) (w : Word) : (c.setI w).mem = c.mem := rfl
@[simp] theorem Chip.setI_fb (c : Chip) (w : Word) : (c.setI w).fb = c.fb := rfl
@[simp] theorem Chip.setI_reg (c : Chip) (w : Word) (r : RegIdx) : (c.setI w).reg r = c.reg r := rfl

@[simp] theorem Chip.setDt_v (c : Chip) (b : Byte) : (c.setDt b).v = c.v := rfl
@[simp] theorem Chip.setDt_i (c : Chip) (b : Byte) : (c.setDt b).i = c.i := rfl
@[simp] theorem Chip.setDt_pc (c : Chip) (b : Byte) : (c.setDt b).pc = c.pc := rfl
@[simp] theorem Chip.setDt_stack (c : Chip) (b : Byte) : (c.setDt b).stack = c.stack := rfl
@[simp] theorem Chip.setDt_sp (c : Chip) (b : Byte) : (c.setDt b).sp = c.sp := rfl
@[simp] theorem Chip.setDt_dt (c : Chip) (b : Byte) : (c.setDt b).dt = b := rfl
@[simp] theorem Chip.setDt_mem (c : Chip) (b : Byte) : (c.setDt b).mem = c.mem := rfl
@[simp] theorem Chip.setDt_fb (c : Chip) (b : Byte) : (c.setDt b).fb = c.fb := rfl
@[simp] theorem Chip.setDt_reg (c : Chip) (b : Byte) (r : RegIdx) : (c.setDt b).reg r = c.reg r := rfl

@[simp] theorem Chip.store_v (c : Chip) (a : Nat) (bs : List Byte) : (c.store a bs).v = c.v := rfl
@[simp] theorem Chip.store_i (c : Chip) (a : Nat) (bs : List Byte) : (c.store a bs).i = c.i := rfl
@[simp] theorem Chip.store_pc (c : Chip) (a : Nat) (bs : List Byte) : (c.store a bs).pc = c.pc := rfl
@[simp] theorem Chip.store_stack (c : Chip) (a : Nat) (bs : List Byte) : (c.store a bs).stack = c.stack := rfl
@[simp] theorem Chip.store_sp (c : Chip) (a : Nat) (bs : List Byte) : (c.store a bs).sp = c.sp := rfl
@[simp] theorem Chip.store_dt (c : Chip) (a : Nat) (bs : List Byte) : (c.store a bs).dt = c.dt := rfl
@[simp] theorem Chip.store_mem (c : Chip) (a : Nat) (bs : List Byte) : (c.store a bs).mem = c.mem.writeBytes a bs := rfl
@[simp] theorem Chip.store_fb (c : Chip) (a : Nat) (bs : List Byte) : (c.store a bs).fb = c.fb := rfl
@[simp] theorem Chip.store_reg (c : Chip) (a : Nat) (bs : List Byte) (r : RegIdx) : (c.store a bs).reg r = c.reg r := rfl

@[simp] theorem Chip.setPc_v (c : Chip) (w : Word) : (c.setPc w).v = c.v := rfl
@[simp] theorem Chip.setPc_i (c : Chip) (w : Word) : (c.setPc w).i = c.i := rfl
@[simp] theorem Chip.setPc_pc (c : Chip) (w : Word) : (c.setPc w).pc = w := rfl
@[simp] theorem Chip.setPc_stack (c : Chip) (w : Word) : (c.setPc w).stack = c.stack := rfl
@[simp] theorem Chip.setPc_sp (c : Chip) (w : Word) : (c.setPc w).sp = c.sp := rfl
@[simp] theorem Chip.setPc_dt (c : Chip) (w : Word) : (c.setPc w).dt = c.dt := rfl
@[simp] theorem Chip.setPc_mem (c : Chip) (w : Word) : (c.setPc w).mem = c.mem := rfl
@[simp] theorem Chip.setPc_fb (c : Chip) (w : Word) : (c.setPc w).fb = c.fb := rfl
@[simp] theorem Chip.setPc_reg (c : Chip) (w : Word) (r : RegIdx) : (c.setPc w).reg r = c.reg r := rfl

@[simp] theorem Chip.advance_v (c : Chip) : (c.advance).v = c.v := rfl
@[simp] theorem Chip.advance_i (c : Chip) : (c.advance).i = c.i := rfl
@[simp] theorem Chip.advance_pc (c : Chip) : (c.advance).pc = c.pc + 2 := rfl
@[simp] theorem Chip.advance_stack (c : Chip) : (c.advance).stack = c.stack := rfl
@[simp] theorem Chip.advance_sp (c : Chip) : (c.advance).sp = c.sp := rfl
@[simp] theorem Chip.advance_dt (c : Chip) : (c.advance).dt = c.dt := rfl
@[simp] theorem Chip.advance_mem (c : Chip) : (c.advance).mem = c.mem := rfl
@[simp] theorem Chip.advance_fb (c : Chip) : (c.advance).fb = c.fb := rfl
@[simp] theorem Chip.advance_reg (c : Chip) (r : RegIdx) : (c.advance).reg r = c.reg r := rfl

@[simp] theorem Chip.skipIf_v (c : Chip) (b : Bool) : (c.skipIf b).v = c.v := rfl
@[simp] theorem Chip.skipIf_i (c : Chip) (b : Bool) : (c.skipIf b).i = c.i := rfl
@[simp] theorem Chip.skipIf_pc (c : Chip) (b : Bool) : (c.skipIf b).pc = if b then c.pc + 4 else c.pc + 2 := rfl
@[simp] theorem Chip.skipIf_stack (c : Chip) (b : Bool) : (c.skipIf b).stack = c.stack := rfl
@[simp] theorem Chip.skipIf_sp (c : Chip) (b : Bool) : (c.skipIf b).sp = c.sp := rfl
@[simp] theorem Chip.skipIf_dt (c : Chip) (b : Bool) : (c.skipIf b).dt = c.dt := rfl
@[simp] theorem Chip.skipIf_mem (c : Chip) (b : Bool) : (c.skipIf b).mem = c.mem := rfl
@[simp] theorem Chip.skipIf_fb (c : Chip) (b : Bool) : (c.skipIf b).fb = c.fb := rfl
@[simp] theorem Chip.skipIf_reg (c : Chip) (b : Bool) (r : RegIdx) : (c.skipIf b).reg r = c.reg r := rfl

@[simp] theorem Chip.push_v (c : Chip) (w : Word) : (c.push w).v = c.v := rfl
@[simp] theorem Chip.push_i (c : Chip) (w : Word) : (c.push w).i = c.i := rfl
@[simp] theorem Chip.push_pc (c : Chip) (w : Word) : (c.push w).pc = c.pc := rfl
@[simp] theorem Chip.push_stack (c : Chip) (w : Word) : (c.push w).stack = c.stack.setIfInBounds c.sp.toNat w := rfl
@[simp] theorem Chip.push_sp (c : Chip) (w : Word) : (c.push w).sp = c.sp + 1 := rfl
@[simp] theorem Chip.push_dt (c : Chip) (w : Word) : (c.push w).dt = c.dt := rfl
@[simp] theorem Chip.push_mem (c : Chip) (w : Word) : (c.push w).mem = c.mem := rfl
@[simp] theorem Chip.push_fb (c : Chip) (w : Word) : (c.push w).fb = c.fb := rfl
@[simp] theorem Chip.push_reg (c : Chip) (w : Word) (r : RegIdx) : (c.push w).reg r = c.reg r := rfl

@[simp] theorem Chip.drop_v (c : Chip) : (c.drop).v = c.v := rfl
@[simp] theorem Chip.drop_i (c : Chip) : (c.drop).i = c.i := rfl
@[simp] theorem Chip.drop_pc (c : Chip) : (c.drop).pc = c.pc := rfl
@[simp] theorem Chip.drop_stack (c : Chip) : (c.drop).stack = c.stack := rfl
@[simp] theorem Chip.drop_sp (c : Chip) : (c.drop).sp = c.sp - 1 := rfl
@[simp] theorem Chip.drop_dt (c : Chip) : (c.drop).dt = c.dt := rfl
@[simp] theorem Chip.drop_mem (c : Chip) : (c.drop).mem = c.mem := rfl
@[simp] theorem Chip.drop_fb (c : Chip) : (c.drop).fb = c.fb := rfl
@[simp] theorem Chip.drop_reg (c : Chip) (r : RegIdx) : (c.drop).reg r = c.reg r := rfl

@[simp] theorem Chip.setFb_v (c : Chip) (f : Framebuffer) : (c.setFb f).v = c.v := rfl
@[simp] theorem Chip.setFb_i (c : Chip) (f : Framebuffer) : (c.setFb f).i = c.i := rfl
@[simp] theorem Chip.setFb_pc (c : Chip) (f : Framebuffer) : (c.setFb f).pc = c.pc := rfl
@[simp] theorem Chip.setFb_stack (c : Chip) (f : Framebuffer) : (c.setFb f).stack = c.stack := rfl
@[simp] theorem Chip.setFb_sp (c : Chip) (f : Framebuffer) : (c.setFb f).sp = c.sp := rfl
@[simp] theorem Chip.setFb_dt (c : Chip) (f : Framebuffer) : (c.setFb f).dt = c.dt := rfl
@[simp] theorem Chip.setFb_mem (c : Chip) (f : Framebuffer) : (c.setFb f).mem = c.mem := rfl
@[simp] theorem Chip.setFb_fb (c : Chip) (f : Framebuffer) : (c.setFb f).fb = f := rfl
@[simp] theorem Chip.setFb_reg (c : Chip) (f : Framebuffer) (r : RegIdx) : (c.setFb f).reg r = c.reg r := rfl

@[simp] theorem Chip.setResultAndFlag_i (c : Chip) (x : RegIdx) (a b : Byte) : (c.setResultAndFlag x a b).i = c.i := rfl
@[simp] theorem Chip.setResultAndFlag_pc (c : Chip) (x : RegIdx) (a b : Byte) : (c.setResultAndFlag x a b).pc = c.pc := rfl
@[simp] theorem Chip.setResultAndFlag_stack (c : Chip) (x : RegIdx) (a b : Byte) : (c.setResultAndFlag x a b).stack = c.stack := rfl
@[simp] theorem Chip.setResultAndFlag_sp (c : Chip) (x : RegIdx) (a b : Byte) : (c.setResultAndFlag x a b).sp = c.sp := rfl
@[simp] theorem Chip.setResultAndFlag_dt (c : Chip) (x : RegIdx) (a b : Byte) : (c.setResultAndFlag x a b).dt = c.dt := rfl
@[simp] theorem Chip.setResultAndFlag_mem (c : Chip) (x : RegIdx) (a b : Byte) : (c.setResultAndFlag x a b).mem = c.mem := rfl
@[simp] theorem Chip.setResultAndFlag_fb (c : Chip) (x : RegIdx) (a b : Byte) : (c.setResultAndFlag x a b).fb = c.fb := rfl

@[simp] theorem Chip.timerTicks_v (c : Chip) (n : Nat) : (c.timerTicks n).v = c.v := rfl
@[simp] theorem Chip.timerTicks_i (c : Chip) (n : Nat) : (c.timerTicks n).i = c.i := rfl
@[simp] theorem Chip.timerTicks_pc (c : Chip) (n : Nat) : (c.timerTicks n).pc = c.pc := rfl
@[simp] theorem Chip.timerTicks_stack (c : Chip) (n : Nat) : (c.timerTicks n).stack = c.stack := rfl
@[simp] theorem Chip.timerTicks_sp (c : Chip) (n : Nat) : (c.timerTicks n).sp = c.sp := rfl
@[simp] theorem Chip.timerTicks_dt (c : Chip) (n : Nat) : (c.timerTicks n).dt = tickDownBy n c.dt := rfl
@[simp] theorem Chip.timerTicks_mem (c : Chip) (n : Nat) : (c.timerTicks n).mem = c.mem := rfl
@[simp] theorem Chip.timerTicks_fb (c : Chip) (n : Nat) : (c.timerTicks n).fb = c.fb := rfl
@[simp] theorem Chip.timerTicks_reg (c : Chip) (n : Nat) (r : RegIdx) : (c.timerTicks n).reg r = c.reg r := rfl

@[simp] theorem Chip.timerTick_v (c : Chip) : (c.timerTick).v = c.v := rfl
@[simp] theorem Chip.timerTick_i (c : Chip) : (c.timerTick).i = c.i := rfl
@[simp] theorem Chip.timerTick_pc (c : Chip) : (c.timerTick).pc = c.pc := rfl
@[simp] theorem Chip.timerTick_stack (c : Chip) : (c.timerTick).stack = c.stack := rfl
@[simp] theorem Chip.timerTick_sp (c : Chip) : (c.timerTick).sp = c.sp := rfl
@[simp] theorem Chip.timerTick_dt (c : Chip) : (c.timerTick).dt = tickDown c.dt := rfl
@[simp] theorem Chip.timerTick_mem (c : Chip) : (c.timerTick).mem = c.mem := rfl
@[simp] theorem Chip.timerTick_fb (c : Chip) : (c.timerTick).fb = c.fb := rfl
@[simp] theorem Chip.timerTick_reg (c : Chip) (r : RegIdx) : (c.timerTick).reg r = c.reg r := rfl

/-! ### Updates of the state around the core -/

@[simp] theorem State.finish_chip (s : State) (c : Chip) (r : Result) : (s.finish c r).chip = c := rfl
@[simp] theorem State.finish_key (s : State) (c : Chip) (r : Result) : (s.finish c r).key = s.key := rfl
@[simp] theorem State.finish_rnd (s : State) (c : Chip) (r : Result) : (s.finish c r).rnd = s.rnd := rfl
@[simp] theorem State.finish_result (s : State) (c : Chip) (r : Result) : (s.finish c r).result = some r := rfl
@[simp] theorem State.finish_host (s : State) (c : Chip) (r : Result) : (s.finish c r).host = s.host := rfl
@[simp] theorem State.finish_turn (s : State) (c : Chip) (r : Result) : (s.finish c r).turn = s.turn := rfl

@[simp] theorem State.present_chip (s : State) (k : Keypad) (b : Byte) : (s.present k b).chip = s.chip := rfl
@[simp] theorem State.present_key (s : State) (k : Keypad) (b : Byte) : (s.present k b).key = k := rfl
@[simp] theorem State.present_rnd (s : State) (k : Keypad) (b : Byte) : (s.present k b).rnd = b := rfl
@[simp] theorem State.present_result (s : State) (k : Keypad) (b : Byte) : (s.present k b).result = s.result := rfl
@[simp] theorem State.present_host (s : State) (k : Keypad) (b : Byte) : (s.present k b).host = s.host := rfl
@[simp] theorem State.present_turn (s : State) (k : Keypad) (b : Byte) : (s.present k b).turn = s.turn := rfl

@[simp] theorem State.timerTick_chip (s : State) : (s.timerTick).chip = s.chip.timerTick := rfl
@[simp] theorem State.timerTick_key (s : State) : (s.timerTick).key = s.key := rfl
@[simp] theorem State.timerTick_rnd (s : State) : (s.timerTick).rnd = s.rnd := rfl
@[simp] theorem State.timerTick_result (s : State) : (s.timerTick).result = s.result := rfl
@[simp] theorem State.timerTick_host (s : State) : (s.timerTick).host = s.host := rfl
@[simp] theorem State.timerTick_turn (s : State) : (s.timerTick).turn = s.turn := rfl

@[simp] theorem State.timerTicks_chip (s : State) (n : Nat) : (s.timerTicks n).chip = s.chip.timerTicks n := rfl
@[simp] theorem State.timerTicks_key (s : State) (n : Nat) : (s.timerTicks n).key = s.key := rfl
@[simp] theorem State.timerTicks_rnd (s : State) (n : Nat) : (s.timerTicks n).rnd = s.rnd := rfl
@[simp] theorem State.timerTicks_result (s : State) (n : Nat) : (s.timerTicks n).result = s.result := rfl
@[simp] theorem State.timerTicks_host (s : State) (n : Nat) : (s.timerTicks n).host = s.host := rfl
@[simp] theorem State.timerTicks_turn (s : State) (n : Nat) : (s.timerTicks n).turn = s.turn := rfl

end Sys2Proof.Machine
end

