-- ==== Sys2Proof/Laws/Display.lean ====
section
/-! SUPPORT. What drawing does to every cell: the cells of a sprite are pairwise distinct (R183 is a statement of its
own), so a cell's new value depends on the one pixel that falls on it, if any. -/

namespace Sys2Proof.Machine

theorem cellAt_setCell (fb : Framebuffer) (x px : Fin 64) (y py : Fin 32) (b : Bool) :
    cellAt (setCell fb x y b) px py = if px = x ∧ py = y then b else cellAt fb px py := by
  unfold cellAt setCell
  by_cases hx : px = x
  · subst hx
    by_cases hy : py = y
    · subst hy; simp
    · rw [if_neg (fun h => hy h.2)]
      simp [Vector.getElem_set_ne, show y.val ≠ py.val from fun h => hy (Fin.ext h.symm)]
  · rw [if_neg (fun h => hx h.1)]
    simp [Vector.getElem_set_ne, show x.val ≠ px.val from fun h => hx (Fin.ext h.symm)]

@[simp] theorem cellAt_blank (px : Fin 64) (py : Fin 32) : cellAt blankFb px py = false := by
  simp [cellAt, blankFb]

/-- A fold of `plot` from any framebuffer: cells no pixel falls on stay, and the collision bit gathers. -/
theorem foldl_plot_other (old : Framebuffer) {ps : List Pixel} (acc : Framebuffer × Bool) {px : Fin 64} {py : Fin 32}
    (h : ∀ p ∈ ps, ¬ (px = p.px ∧ py = p.py)) : cellAt (ps.foldl (plot old) acc).1 px py = cellAt acc.1 px py := by
  induction ps generalizing acc with
  | nil => rfl
  | cons p ps ih =>
    rw [List.foldl_cons, ih _ (fun q hq => h q (List.mem_cons_of_mem _ hq))]
    simp only [plot, cellAt_setCell]
    rw [if_neg (h p (List.mem_cons_self ..))]

theorem foldl_plot_collision (old : Framebuffer) (ps : List Pixel) (acc : Framebuffer × Bool) :
    (ps.foldl (plot old) acc).2 = (acc.2 || ps.any (fun p => cellAt old p.px p.py && p.bit)) := by
  induction ps generalizing acc with
  | nil => simp
  | cons p ps ih => rw [List.foldl_cons, ih]; simp [plot, Bool.or_assoc]

theorem foldl_plot_at (old : Framebuffer) {ps : List Pixel} (acc : Framebuffer × Bool)
    (hd : ps.Pairwise (fun p q => ¬ (p.px = q.px ∧ p.py = q.py))) {p : Pixel} (hp : p ∈ ps) :
    cellAt (ps.foldl (plot old) acc).1 p.px p.py = (cellAt old p.px p.py ^^ p.bit) := by
  induction ps generalizing acc with
  | nil => cases hp
  | cons q ps ih =>
    obtain ⟨hq, hps⟩ := List.pairwise_cons.mp hd
    rw [List.foldl_cons]
    rcases List.mem_cons.mp hp with rfl | hp
    · rw [foldl_plot_other old _ (fun r hr => hq r hr)]
      simp [plot, cellAt_setCell]
    · exact ih _ hps hp

/-- A cell that no pixel falls on is not changed. -/
theorem drawPixels_other (fb : Framebuffer) {ps : List Pixel} {px : Fin 64} {py : Fin 32}
    (h : ∀ p ∈ ps, ¬ (px = p.px ∧ py = p.py)) : cellAt (drawPixels fb ps).1 px py = cellAt fb px py :=
  foldl_plot_other fb _ h

/-- A cell that a pixel falls on becomes old XOR the sprite bit. -/
theorem drawPixels_at (fb : Framebuffer) {ps : List Pixel}
    (hd : ps.Pairwise (fun p q => ¬ (p.px = q.px ∧ p.py = q.py))) {p : Pixel} (hp : p ∈ ps) :
    cellAt (drawPixels fb ps).1 p.px p.py = (cellAt fb p.px p.py ^^ p.bit) :=
  foldl_plot_at fb _ hd hp

/-- The collision bit: some pixel with its bit set falls on a set cell. -/
theorem drawPixels_collision (fb : Framebuffer) (ps : List Pixel) :
    (drawPixels fb ps).2 = ps.any (fun p => cellAt fb p.px p.py && p.bit) := by
  simp [drawPixels, foldl_plot_collision]

/-- The pixels of a sprite are those of its rows r and columns c < 8. -/
theorem mem_spritePixels {x0 y0 : Byte} {rows : List Byte} {p : Pixel} :
    p ∈ spritePixels x0 y0 rows ↔ ∃ r c row, rows[r]? = some row ∧ c < 8 ∧ p = pixelAt x0 y0 row r c := by
  simp only [spritePixels, List.mem_flatMap, List.mem_map, List.mem_range]
  constructor
  · rintro ⟨⟨row, r⟩, hr, c, hc, rfl⟩
    exact ⟨r, c, row, List.mem_zipIdx_iff_getElem?.mp hr, hc, rfl⟩
  · rintro ⟨r, c, row, hr, hc, rfl⟩
    exact ⟨(row, r), List.mem_zipIdx_iff_getElem?.mpr hr, c, hc, rfl⟩

end Sys2Proof.Machine
end

