-- ==== Sys2Proof/Laws/Memory.lean ====
section
/-! SUPPORT. The laws of memory: a read after a write, a read after a run of writes, and that every memory operation
keeps the canonical form. -/

namespace Sys2Proof.Machine

/-! ### Read after write -/

theorem Memory.lookup_of_lt {m : Memory} {a : Nat} (h : ∀ c ∈ m, a < c.1) : m.lookup a = Memory.unlisted a := by
  induction m with
  | nil => rfl
  | cons c m ih =>
    have hc := h c (List.mem_cons_self ..)
    simp only [Memory.lookup, if_neg (show a ≠ c.1 by omega)]
    exact ih (fun d hd => h d (List.mem_cons_of_mem _ hd))

theorem Memory.lookup_putFirst {m : Memory} {a : Nat} (h : ∀ c ∈ m, a < c.1) (v : Byte) (b : Nat) :
    (Memory.putFirst a v m).lookup b = if b = a then v else m.lookup b := by
  unfold Memory.putFirst
  split
  · split
    · subst_vars; exact Memory.lookup_of_lt h
    · rfl
  · rfl

/-- On a memory whose addresses rise, a byte inserted is the byte found, and every other byte is as before. -/
theorem Memory.lookup_insert {m : Memory} (h : m.Pairwise (fun c d => c.1 < d.1)) (a : Nat) (v : Byte) (b : Nat) :
    (m.insert a v).lookup b = if b = a then v else m.lookup b := by
  induction m with
  | nil => exact Memory.lookup_putFirst (by simp) v b
  | cons c m ih =>
    obtain ⟨hc, hm⟩ := List.pairwise_cons.mp h
    simp only [Memory.insert]
    split
    · refine Memory.lookup_putFirst (fun d hd => ?_) v b
      rcases List.mem_cons.mp hd with rfl | hd
      · assumption
      · have := hc d hd; omega
    · split
      · rename_i hac
        rw [Memory.lookup_putFirst (fun d hd => hac ▸ hc d hd) v b]
        simp only [Memory.lookup]
        split <;> simp_all
      · simp only [Memory.lookup, ih hm]
        split
        · rw [if_neg (by omega)]
        · rfl

/-! ### The canonical form -/

theorem Memory.wf_nil : Memory.wf [] := by decide

theorem Memory.mem_putFirst {a : Nat} {v : Byte} {m : Memory} {c : Host.Cell}
    (h : c ∈ Memory.putFirst a v m) : c ∈ m ∨ (c = (a, v) ∧ v ≠ Memory.unlisted a) := by
  unfold Memory.putFirst at h
  split at h
  · exact .inl h
  · rcases List.mem_cons.mp h with h | h
    · exact .inr ⟨h, ‹_›⟩
    · exact .inl h

theorem Memory.mem_insert {a : Nat} {v : Byte} {m : Memory} {c : Host.Cell} (h : c ∈ m.insert a v) :
    c ∈ m ∨ (c = (a, v) ∧ v ≠ Memory.unlisted a) := by
  induction m with
  | nil => exact Memory.mem_putFirst h
  | cons d m ih =>
    simp only [Memory.insert] at h
    split at h
    · exact Memory.mem_putFirst h
    · split at h
      · exact (Memory.mem_putFirst h).imp_left (List.mem_cons_of_mem _)
      · rcases List.mem_cons.mp h with rfl | h
        · exact .inl (List.mem_cons_self ..)
        · exact (ih h).imp_left (List.mem_cons_of_mem _)

theorem Memory.rising_putFirst {a : Nat} (v : Byte) {m : Memory} (h : m.Pairwise (fun c d => c.1 < d.1))
    (ha : ∀ c ∈ m, a < c.1) : (Memory.putFirst a v m).Pairwise (fun c d => c.1 < d.1) := by
  unfold Memory.putFirst
  split
  · exact h
  · exact List.pairwise_cons.mpr ⟨ha, h⟩

theorem Memory.rising_insert (a : Nat) (v : Byte) {m : Memory} (h : m.Pairwise (fun c d => c.1 < d.1)) :
    (m.insert a v).Pairwise (fun c d => c.1 < d.1) := by
  induction m with
  | nil => exact Memory.rising_putFirst v List.Pairwise.nil (by simp)
  | cons c m ih =>
    obtain ⟨hc, hm⟩ := List.pairwise_cons.mp h
    simp only [Memory.insert]
    split
    · refine Memory.rising_putFirst v h (fun d hd => ?_)
      rcases List.mem_cons.mp hd with rfl | hd
      · assumption
      · have := hc d hd; omega
    · split
      · rename_i hac
        exact Memory.rising_putFirst v hm (fun d hd => hac ▸ hc d hd)
      · refine List.pairwise_cons.mpr ⟨fun d hd => ?_, ih hm⟩
        rcases Memory.mem_insert hd with hd | ⟨rfl, _⟩
        · exact hc d hd
        · show c.1 < a
          omega

/-- A write keeps the canonical form. -/
theorem Memory.wf_write {m : Memory} (h : m.wf) (addr : Nat) (v : Byte) : (m.write addr v).wf := by
  refine ⟨Memory.rising_insert _ v h.1, fun c hc => ?_⟩
  rcases Memory.mem_insert hc with hc | ⟨rfl, hv⟩
  · exact h.2 c hc
  · exact ⟨Nat.mod_lt _ (by decide), hv⟩

/-- A run of writes keeps the canonical form. -/
theorem Memory.wf_writeBytes {m : Memory} (h : m.wf) (addr : Nat) (bs : List Byte) : (m.writeBytes addr bs).wf := by
  induction bs generalizing m addr with
  | nil => exact h
  | cons b bs ih => exact ih (Memory.wf_write h addr b) (addr + 1)

/-! ### Reads after writes -/

/-- A read after one write (R52). -/
theorem Memory.lookup_write {m : Memory} (h : m.wf) (addr : Nat) (v : Byte) (b : Nat) :
    (m.write addr v).lookup b = if b = addr % memSize then v else m.lookup b :=
  Memory.lookup_insert h.1 _ v b

/-- An address that none of a run's bytes is stored to reads as before. -/
theorem Memory.lookup_writeBytes_other {m : Memory} (h : m.wf) (addr : Nat) (bs : List Byte) {b : Nat}
    (hb : ∀ k, k < bs.length → b ≠ (addr + k) % memSize) : (m.writeBytes addr bs).lookup b = m.lookup b := by
  induction bs generalizing m addr with
  | nil => rfl
  | cons v bs ih =>
    rw [Memory.writeBytes, ih (Memory.wf_write h addr v) (addr + 1) (fun k hk => by
      have := hb (k + 1) (by simpa using hk)
      rwa [show addr + 1 + k = addr + (k + 1) by omega]), Memory.lookup_write h,
      if_neg (by simpa using hb 0 (by simp))]

/-- The k-th byte of a run of at most 4096 bytes is read back at its address. -/
theorem Memory.lookup_writeBytes_at {m : Memory} (h : m.wf) (addr : Nat) {bs : List Byte} {k : Nat} {v : Byte}
    (hl : bs.length ≤ memSize) (hk : bs[k]? = some v) :
    (m.writeBytes addr bs).lookup ((addr + k) % memSize) = v := by
  induction bs generalizing m addr k with
  | nil => simp at hk
  | cons w bs ih =>
    simp only [List.length_cons, memSize] at hl
    cases k with
    | zero =>
      simp only [List.getElem?_cons_zero, Option.some.injEq] at hk
      subst hk
      rw [Memory.writeBytes, Memory.lookup_writeBytes_other (Memory.wf_write h addr w),
        Memory.lookup_write h, if_pos (by rfl)]
      intro j hj
      simp only [memSize]
      omega
    | succ k =>
      simp only [List.getElem?_cons_succ] at hk
      have := ih (Memory.wf_write h addr w) (addr + 1) (k := k) (by simp only [memSize]; omega) hk
      rwa [show addr + 1 + k = addr + (k + 1) by omega] at this

/-- `readBytes` reads byte k at its own masked address. -/
theorem Memory.readBytes_getElem? (m : Memory) (addr : Nat) {n k : Nat} (h : k < n) :
    (m.readBytes addr n)[k]? = some (m.read (addr + k)) := by
  simp [Memory.readBytes, h]

@[simp] theorem Memory.readBytes_length (m : Memory) (addr n : Nat) : (m.readBytes addr n).length = n := by
  simp [Memory.readBytes]

end Sys2Proof.Machine
end

