-- ==== Sys2Proof/Laws/Registers.lean ====
section
/-! SUPPORT. What a write of registers does to every register, and to nothing else. -/

namespace Sys2Proof.Machine

theorem Chip.setReg_reg (c : Chip) (x r : RegIdx) (b : Byte) :
    (c.setReg x b).reg r = if r = x then b else c.reg r := by
  simp only [Chip.setReg, Chip.reg, Vector.getElem_set, Fin.ext_iff, eq_comm]

@[simp] theorem Chip.setReg_reg_self (c : Chip) (x : RegIdx) (b : Byte) : (c.setReg x b).reg x = b := by
  simp [Chip.setReg_reg]

theorem Chip.setReg_reg_of_ne (c : Chip) {x r : RegIdx} (b : Byte) (h : r ≠ x) :
    (c.setReg x b).reg r = c.reg r := by
  simp [Chip.setReg_reg, h]

/-- The flag stands, also when the result's register is VF (R108). -/
@[simp] theorem Chip.setResultAndFlag_vf (c : Chip) (x : RegIdx) (a b : Byte) :
    (c.setResultAndFlag x a b).reg vf = b := by
  simp [Chip.setResultAndFlag]

theorem Chip.setResultAndFlag_result (c : Chip) {x : RegIdx} (a b : Byte) (h : x ≠ vf) :
    (c.setResultAndFlag x a b).reg x = a := by
  simp [Chip.setResultAndFlag, Chip.setReg_reg, h]

theorem Chip.setResultAndFlag_other (c : Chip) {x r : RegIdx} (a b : Byte) (h : r ≠ x) (h' : r ≠ vf) :
    (c.setResultAndFlag x a b).reg r = c.reg r := by
  simp [Chip.setResultAndFlag, Chip.setReg_reg, h, h']

/-! ### A run of register writes (Fx65) -/

theorem mem_regsUpTo {x r : RegIdx} : r ∈ regsUpTo x ↔ r ≤ x := by
  revert x r; decide

theorem regsUpTo_nodup (x : RegIdx) : (regsUpTo x).Nodup := by
  revert x; decide

theorem regsUpTo_length (x : RegIdx) : (regsUpTo x).length = x.val + 1 := by
  simp [regsUpTo]

theorem regsUpTo_getElem? (x : RegIdx) (k : Nat) (h : k ≤ x.val) :
    (regsUpTo x)[k]? = some (Fin.ofNat 16 k) := by
  simp [regsUpTo, show k < x.val + 1 by omega]

/-- The core after a run of register writes differs in V alone. -/
theorem Chip.setRegs_eq (c : Chip) (rs : List RegIdx) (bs : List Byte) :
    c.setRegs rs bs = { c with v := (c.setRegs rs bs).v } := by
  suffices h : ∀ (l : List (RegIdx × Byte)) (d : Chip),
      l.foldl (fun c' rb => c'.setReg rb.1 rb.2) d
        = { d with v := (l.foldl (fun c' rb => c'.setReg rb.1 rb.2) d).v } from h _ _
  intro l
  induction l with
  | nil => intro d; rfl
  | cons p l ih => intro d; exact ih (d.setReg p.1 p.2)

@[simp] theorem Chip.setRegs_i (c : Chip) (rs : List RegIdx) (bs : List Byte) : (c.setRegs rs bs).i = c.i := by
  rw [Chip.setRegs_eq]
@[simp] theorem Chip.setRegs_pc (c : Chip) (rs : List RegIdx) (bs : List Byte) : (c.setRegs rs bs).pc = c.pc := by
  rw [Chip.setRegs_eq]
@[simp] theorem Chip.setRegs_stack (c : Chip) (rs : List RegIdx) (bs : List Byte) :
    (c.setRegs rs bs).stack = c.stack := by
  rw [Chip.setRegs_eq]
@[simp] theorem Chip.setRegs_sp (c : Chip) (rs : List RegIdx) (bs : List Byte) : (c.setRegs rs bs).sp = c.sp := by
  rw [Chip.setRegs_eq]
@[simp] theorem Chip.setRegs_dt (c : Chip) (rs : List RegIdx) (bs : List Byte) : (c.setRegs rs bs).dt = c.dt := by
  rw [Chip.setRegs_eq]
@[simp] theorem Chip.setRegs_mem (c : Chip) (rs : List RegIdx) (bs : List Byte) :
    (c.setRegs rs bs).mem = c.mem := by
  rw [Chip.setRegs_eq]
@[simp] theorem Chip.setRegs_fb (c : Chip) (rs : List RegIdx) (bs : List Byte) : (c.setRegs rs bs).fb = c.fb := by
  rw [Chip.setRegs_eq]

/-- A register that is not among those written keeps its value. -/
theorem Chip.setRegs_reg_of_not_mem (c : Chip) (rs : List RegIdx) (bs : List Byte) {r : RegIdx} (h : r ∉ rs) :
    (c.setRegs rs bs).reg r = c.reg r := by
  suffices H : ∀ (rs : List RegIdx) (bs : List Byte) (d : Chip), r ∉ rs →
      ((rs.zip bs).foldl (fun c' rb => c'.setReg rb.1 rb.2) d).reg r = d.reg r from H rs bs c h
  intro rs
  induction rs with
  | nil => intro bs d _; rfl
  | cons q rs ih =>
    intro bs d hr
    simp only [List.mem_cons, not_or] at hr
    cases bs with
    | nil => rfl
    | cons b bs =>
      rw [List.zip_cons_cons, List.foldl_cons, ih bs _ hr.2]
      exact d.setReg_reg_of_ne b hr.1

/-- The k-th register written holds the k-th byte. -/
theorem Chip.setRegs_reg_getElem (c : Chip) {rs : List RegIdx} {bs : List Byte} (hnd : rs.Nodup) {k : Nat}
    {r : RegIdx} {b : Byte} (hr : rs[k]? = some r) (hb : bs[k]? = some b) : (c.setRegs rs bs).reg r = b := by
  suffices H : ∀ (rs : List RegIdx) (bs : List Byte) (d : Chip) (k : Nat), rs.Nodup → rs[k]? = some r →
      bs[k]? = some b → ((rs.zip bs).foldl (fun c' rb => c'.setReg rb.1 rb.2) d).reg r = b from
    H rs bs c k hnd hr hb
  intro rs
  induction rs with
  | nil => intro bs d k _ hr _; simp at hr
  | cons q rs ih =>
    intro bs d k hnd hr hb
    cases bs with
    | nil => simp at hb
    | cons a bs =>
      rw [List.zip_cons_cons, List.foldl_cons]
      cases k with
      | zero =>
        simp only [List.getElem?_cons_zero, Option.some.injEq] at hr hb
        subst hr hb
        have := Chip.setRegs_reg_of_not_mem (d.setReg q a) rs bs (List.nodup_cons.mp hnd).1
        exact this.trans (d.setReg_reg_self q a)
      | succ k =>
        simp only [List.getElem?_cons_succ] at hr hb
        exact ih bs _ k (List.nodup_cons.mp hnd).2 hr hb

end Sys2Proof.Machine
end

