-- ==== Sys2Proof/Laws/Exec.lean ====
section
/-! SUPPORT. Said once: how an instruction, a cycle and a step can answer. Every later proof about "whatever the
instruction" starts from these. -/

namespace Sys2Proof.Machine

/-! ### The ways a cycle ends -/

@[simp] theorem complete_eq (s : State) (c : Chip) : complete s c = .next (s.finish c .ok) := rfl

@[simp] theorem completeNext_eq (s : State) (c : Chip) : completeNext s c = .next (s.finish c.advance .ok) := rfl

@[simp] theorem raise_eq (r : Result) (s : State) : raise r s = .next (s.finish s.chip r) := rfl

@[simp] theorem takeUnknownOpcode_eq (op : Word) (s : State) :
    takeUnknownOpcode op s = .next (s.finish s.chip.advance (.unknownOpcode op)) := rfl

@[simp] theorem State.afterKeyWait_none (s : State) (x : RegIdx) :
    s.afterKeyWait x none = s.finish s.chip .waitKey := rfl

@[simp] theorem State.afterKeyWait_some (s : State) (x : RegIdx) (k : Fin 16) :
    s.afterKeyWait x (some k) = s.finish (s.chip.setReg x (keyByte k)).advance .ok := rfl

/-- All that 00EE can do. -/
theorem execRet_cases (s : State) :
    (s.chip.sp = 0 ∧ execRet s = .next (s.finish s.chip .stackUnderflow)) ∨
    (∃ a, s.chip.sp ≠ 0 ∧ s.chip.slot? (s.chip.sp.toNat - 1) = some a ∧
      execRet s = .next (s.finish (s.chip.drop.setPc (a + 2)) .ok)) ∨
    (stackDepth < s.chip.sp.toNat ∧ execRet s = .fault .illegalStackPointer) := by
  unfold execRet
  split
  · exact .inl ⟨‹_›, rfl⟩
  · split
    · exact .inr (.inl ⟨_, ‹_›, ‹_›, rfl⟩)
    · rename_i h
      refine .inr (.inr ⟨?_, rfl⟩)
      simp only [Chip.slot?, Vector.getElem?_eq_none_iff] at h
      simp only [stackDepth]; omega

/-- All that 2nnn can do. -/
theorem execCall_cases (nnn : Addr) (s : State) :
    (s.chip.sp = 16 ∧ execCall nnn s = .next (s.finish s.chip .stackOverflow)) ∨
    (s.chip.sp.toNat < stackDepth ∧
      execCall nnn s = .next (s.finish ((s.chip.push s.chip.pc).setPc (addrOperand nnn)) .ok)) ∨
    (stackDepth < s.chip.sp.toNat ∧ execCall nnn s = .fault .illegalStackPointer) := by
  unfold execCall
  split
  · exact .inl ⟨‹_›, rfl⟩
  · split
    · exact .inr (.inl ⟨‹_›, rfl⟩)
    · rename_i h h'
      refine .inr (.inr ⟨?_, rfl⟩)
      have : s.chip.sp.toNat ≠ 16 := fun e => h (BitVec.eq_of_toNat_eq e)
      simp only [stackDepth] at *; omega

/-- All that Fx0A can do. -/
theorem execLdVxK_cases (x : RegIdx) (s : State) :
    (lowestKeyDown s.key = none ∧ execLdVxK x s = .next (s.finish s.chip .waitKey)) ∨
    (∃ k, lowestKeyDown s.key = some k ∧
      execLdVxK x s = .next (s.finish (s.chip.setReg x (keyByte k)).advance .ok)) := by
  unfold execLdVxK
  cases h : lowestKeyDown s.key with
  | none => exact .inl ⟨rfl, rfl⟩
  | some k => exact .inr ⟨k, rfl, rfl⟩

/-- However an instruction ends with a next state, it leaves the ports and the host's operations alone: that state is
`s` with a core and a result code. -/
theorem exec_next_eq_finish {i : Instr} {s t : State} (h : exec i s = .next t) : ∃ c r, t = s.finish c r := by
  cases i with
  | ret =>
    rcases execRet_cases s with ⟨_, e⟩ | ⟨_, _, _, e⟩ | ⟨_, e⟩ <;>
      · rw [exec, e] at h; first | exact ⟨_, _, (Host.Outcome.next.inj h).symm⟩ | cases h
  | call nnn =>
    rcases execCall_cases nnn s with ⟨_, e⟩ | ⟨_, e⟩ | ⟨_, e⟩ <;>
      · rw [exec, e] at h; first | exact ⟨_, _, (Host.Outcome.next.inj h).symm⟩ | cases h
  | ldVxK x =>
    rcases execLdVxK_cases x s with ⟨_, e⟩ | ⟨_, _, e⟩ <;>
      · rw [exec, e] at h; exact ⟨_, _, (Host.Outcome.next.inj h).symm⟩
  | _ => exact ⟨_, _, (Host.Outcome.next.inj h).symm⟩

/-- No instruction is refused. -/
theorem exec_not_refused (i : Instr) (s : State) (r : Refusal) : exec i s ≠ .refused r := by
  cases i with
  | ret => rcases execRet_cases s with ⟨_, e⟩ | ⟨_, _, _, e⟩ | ⟨_, e⟩ <;> simp [exec, e]
  | call nnn => rcases execCall_cases nnn s with ⟨_, e⟩ | ⟨_, e⟩ | ⟨_, e⟩ <;> simp [exec, e]
  | _ => intro h; cases h

/-- An instruction faults only from a stack pointer above 16. -/
theorem exec_fault {i : Instr} {s : State} {f : Fault} (h : exec i s = .fault f) :
    f = .illegalStackPointer ∧ stackDepth < s.chip.sp.toNat := by
  cases i with
  | ret =>
    rcases execRet_cases s with ⟨_, e⟩ | ⟨_, _, _, e⟩ | ⟨hs, e⟩ <;> rw [exec, e] at h
    · cases h
    · cases h
    · cases h; exact ⟨rfl, hs⟩
  | call nnn =>
    rcases execCall_cases nnn s with ⟨_, e⟩ | ⟨_, e⟩ | ⟨hs, e⟩ <;> rw [exec, e] at h
    · cases h
    · cases h
    · cases h; exact ⟨rfl, hs⟩
  | _ => cases h

/-! ### The cycle -/

/-- All that a cycle can be: the decoded instruction, or the unknown opcode (R100). -/
theorem cycle_cases (s : State) :
    (∃ i, decodeWord s.chip.fetch = .ok i ∧ cycle s = exec i s) ∨
    ((∃ e, decodeWord s.chip.fetch = .error e) ∧
      cycle s = .next (s.finish s.chip.advance (.unknownOpcode s.chip.fetch))) := by
  unfold cycle
  cases h : decodeWord s.chip.fetch with
  | ok i => exact .inl ⟨i, rfl, rfl⟩
  | error e => exact .inr ⟨⟨e, rfl⟩, rfl⟩

/-! ### The step -/

theorem step_listed (op : HostOp) (rest : List HostOp) (s : State) (h : s.host = op :: rest) :
    step s = runOp op { s with host := rest } := by
  simp only [step, h]

theorem step_unlisted (s : State) (h : s.host = []) : step s = freeRun s := by
  simp only [step, h]

theorem thenTicks_next {n : Nat} {o : StepOutcome} {t : State} (h : thenTicks n o = .next t) :
    ∃ u, o = .next u ∧ t = u.timerTicks n := by
  cases o with
  | next u => exact ⟨u, rfl, (Host.Outcome.next.inj h).symm⟩
  | fault r => cases h
  | refused r => cases h

end Sys2Proof.Machine
end

