-- ==== Sys2Proof/Laws/PerInstr.lean ====
section
/-! SUPPORT. Per instruction: its encoded word matches a row of the opcode map, and that row builds the instruction
back from the word's fields. With the rows pairwise disjoint this is what a round trip through the decoder needs. -/

namespace Sys2Proof.Laws.RowOf

/-- Some row of the opcode map matches the instruction's word and builds the instruction from the word's fields. -/
def Statement (i : Instr) : Prop :=
  ∃ r ∈ opcodeMap, r.matchesWord (encode i) = true ∧ r.build (fieldsOf (encode i)) = i

theorem cls : Statement .cls :=
  ⟨⟨0xFFFF, 0x00E0, fun _ => .cls⟩, by simp [opcodeMap, rowsE], by decide, rfl⟩

theorem ret : Statement .ret :=
  ⟨⟨0xFFFF, 0x00EE, fun _ => .ret⟩, by simp [opcodeMap, rowsE], by decide, rfl⟩

theorem jp (nnn : Addr) : Statement (.jp nnn) :=
  ⟨⟨0xF000, 0x1000, fun f => .jp f.nnn⟩, by simp [opcodeMap, rowsF000], matches_formatA _ _ _ _ rfl, by simp only [encode, fieldsOf_formatA_nnn]⟩

theorem call (nnn : Addr) : Statement (.call nnn) :=
  ⟨⟨0xF000, 0x2000, fun f => .call f.nnn⟩, by simp [opcodeMap, rowsF000], matches_formatA _ _ _ _ rfl, by simp only [encode, fieldsOf_formatA_nnn]⟩

theorem seImm (x : RegIdx) (kk : Byte) : Statement (.seImm x kk) :=
  ⟨⟨0xF000, 0x3000, fun f => .seImm f.x f.kk⟩, by simp [opcodeMap, rowsF000], matches_formatXK _ _ _ _ _ rfl, by simp only [encode, fieldsOf_formatXK_x, fieldsOf_formatXK_kk]⟩

theorem sneImm (x : RegIdx) (kk : Byte) : Statement (.sneImm x kk) :=
  ⟨⟨0xF000, 0x4000, fun f => .sneImm f.x f.kk⟩, by simp [opcodeMap, rowsF000], matches_formatXK _ _ _ _ _ rfl, by simp only [encode, fieldsOf_formatXK_x, fieldsOf_formatXK_kk]⟩

theorem seReg (x : RegIdx) (y : RegIdx) : Statement (.seReg x y) :=
  ⟨⟨0xF00F, 0x5000, fun f => .seReg f.x f.y⟩, by simp [opcodeMap, rowsF00F], matches_formatXY _ _ _ _ _ _ rfl, by simp only [encode, fieldsOf_formatXY_x, fieldsOf_formatXY_y]⟩

theorem ldImm (x : RegIdx) (kk : Byte) : Statement (.ldImm x kk) :=
  ⟨⟨0xF000, 0x6000, fun f => .ldImm f.x f.kk⟩, by simp [opcodeMap, rowsF000], matches_formatXK _ _ _ _ _ rfl, by simp only [encode, fieldsOf_formatXK_x, fieldsOf_formatXK_kk]⟩

theorem addImm (x : RegIdx) (kk : Byte) : Statement (.addImm x kk) :=
  ⟨⟨0xF000, 0x7000, fun f => .addImm f.x f.kk⟩, by simp [opcodeMap, rowsF000], matches_formatXK _ _ _ _ _ rfl, by simp only [encode, fieldsOf_formatXK_x, fieldsOf_formatXK_kk]⟩

theorem ldReg (x : RegIdx) (y : RegIdx) : Statement (.ldReg x y) :=
  ⟨⟨0xF00F, 0x8000, fun f => .ldReg f.x f.y⟩, by simp [opcodeMap, rowsF00F], matches_formatXY _ _ _ _ _ _ rfl, by simp only [encode, fieldsOf_formatXY_x, fieldsOf_formatXY_y]⟩

theorem orReg (x : RegIdx) (y : RegIdx) : Statement (.orReg x y) :=
  ⟨⟨0xF00F, 0x8001, fun f => .orReg f.x f.y⟩, by simp [opcodeMap, rowsF00F], matches_formatXY _ _ _ _ _ _ rfl, by simp only [encode, fieldsOf_formatXY_x, fieldsOf_formatXY_y]⟩

theorem andReg (x : RegIdx) (y : RegIdx) : Statement (.andReg x y) :=
  ⟨⟨0xF00F, 0x8002, fun f => .andReg f.x f.y⟩, by simp [opcodeMap, rowsF00F], matches_formatXY _ _ _ _ _ _ rfl, by simp only [encode, fieldsOf_formatXY_x, fieldsOf_formatXY_y]⟩

theorem xorReg (x : RegIdx) (y : RegIdx) : Statement (.xorReg x y) :=
  ⟨⟨0xF00F, 0x8003, fun f => .xorReg f.x f.y⟩, by simp [opcodeMap, rowsF00F], matches_formatXY _ _ _ _ _ _ rfl, by simp only [encode, fieldsOf_formatXY_x, fieldsOf_formatXY_y]⟩

theorem addReg (x : RegIdx) (y : RegIdx) : Statement (.addReg x y) :=
  ⟨⟨0xF00F, 0x8004, fun f => .addReg f.x f.y⟩, by simp [opcodeMap, rowsF00F], matches_formatXY _ _ _ _ _ _ rfl, by simp only [encode, fieldsOf_formatXY_x, fieldsOf_formatXY_y]⟩

theorem subReg (x : RegIdx) (y : RegIdx) : Statement (.subReg x y) :=
  ⟨⟨0xF00F, 0x8005, fun f => .subReg f.x f.y⟩, by simp [opcodeMap, rowsF00F], matches_formatXY _ _ _ _ _ _ rfl, by simp only [encode, fieldsOf_formatXY_x, fieldsOf_formatXY_y]⟩

theorem shr (x : RegIdx) (y : RegIdx) : Statement (.shr x y) :=
  ⟨⟨0xF00F, 0x8006, fun f => .shr f.x f.y⟩, by simp [opcodeMap, rowsF00F], matches_formatXY _ _ _ _ _ _ rfl, by simp only [encode, fieldsOf_formatXY_x, fieldsOf_formatXY_y]⟩

theorem subnReg (x : RegIdx) (y : RegIdx) : Statement (.subnReg x y) :=
  ⟨⟨0xF00F, 0x8007, fun f => .subnReg f.x f.y⟩, by simp [opcodeMap, rowsF00F], matches_formatXY _ _ _ _ _ _ rfl, by simp only [encode, fieldsOf_formatXY_x, fieldsOf_formatXY_y]⟩

theorem shl (x : RegIdx) (y : RegIdx) : Statement (.shl x y) :=
  ⟨⟨0xF00F, 0x800E, fun f => .shl f.x f.y⟩, by simp [opcodeMap, rowsF00F], matches_formatXY _ _ _ _ _ _ rfl, by simp only [encode, fieldsOf_formatXY_x, fieldsOf_formatXY_y]⟩

theorem sneReg (x : RegIdx) (y : RegIdx) : Statement (.sneReg x y) :=
  ⟨⟨0xF00F, 0x9000, fun f => .sneReg f.x f.y⟩, by simp [opcodeMap, rowsF00F], matches_formatXY _ _ _ _ _ _ rfl, by simp only [encode, fieldsOf_formatXY_x, fieldsOf_formatXY_y]⟩

theorem ldI (nnn : Addr) : Statement (.ldI nnn) :=
  ⟨⟨0xF000, 0xA000, fun f => .ldI f.nnn⟩, by simp [opcodeMap, rowsF000], matches_formatA _ _ _ _ rfl, by simp only [encode, fieldsOf_formatA_nnn]⟩

theorem jpV0 (nnn : Addr) : Statement (.jpV0 nnn) :=
  ⟨⟨0xF000, 0xB000, fun f => .jpV0 f.nnn⟩, by simp [opcodeMap, rowsF000], matches_formatA _ _ _ _ rfl, by simp only [encode, fieldsOf_formatA_nnn]⟩

theorem rnd (x : RegIdx) (kk : Byte) : Statement (.rnd x kk) :=
  ⟨⟨0xF000, 0xC000, fun f => .rnd f.x f.kk⟩, by simp [opcodeMap, rowsF000], matches_formatXK _ _ _ _ _ rfl, by simp only [encode, fieldsOf_formatXK_x, fieldsOf_formatXK_kk]⟩

theorem drw (x : RegIdx) (y : RegIdx) (n : Fin 16) : Statement (.drw x y n) :=
  ⟨⟨0xF000, 0xD000, fun f => .drw f.x f.y f.n⟩, by simp [opcodeMap, rowsF000], matches_formatXYN _ _ _ _ _ _ rfl, by simp only [encode, fieldsOf_formatXY_x, fieldsOf_formatXY_y, fieldsOf_formatXY_n]⟩

theorem skp (x : RegIdx) : Statement (.skp x) :=
  ⟨⟨0xF0FF, 0xE09E, fun f => .skp f.x⟩, by simp [opcodeMap, rowsF0FF], matches_formatX _ _ _ _ _ rfl, by simp only [encode, formatX, fieldsOf_formatXK_x]⟩

theorem sknp (x : RegIdx) : Statement (.sknp x) :=
  ⟨⟨0xF0FF, 0xE0A1, fun f => .sknp f.x⟩, by simp [opcodeMap, rowsF0FF], matches_formatX _ _ _ _ _ rfl, by simp only [encode, formatX, fieldsOf_formatXK_x]⟩

theorem ldVxDt (x : RegIdx) : Statement (.ldVxDt x) :=
  ⟨⟨0xF0FF, 0xF007, fun f => .ldVxDt f.x⟩, by simp [opcodeMap, rowsF0FF], matches_formatX _ _ _ _ _ rfl, by simp only [encode, formatX, fieldsOf_formatXK_x]⟩

theorem ldVxK (x : RegIdx) : Statement (.ldVxK x) :=
  ⟨⟨0xF0FF, 0xF00A, fun f => .ldVxK f.x⟩, by simp [opcodeMap, rowsF0FF], matches_formatX _ _ _ _ _ rfl, by simp only [encode, formatX, fieldsOf_formatXK_x]⟩

theorem ldDtVx (x : RegIdx) : Statement (.ldDtVx x) :=
  ⟨⟨0xF0FF, 0xF015, fun f => .ldDtVx f.x⟩, by simp [opcodeMap, rowsF0FF], matches_formatX _ _ _ _ _ rfl, by simp only [encode, formatX, fieldsOf_formatXK_x]⟩

theorem ldStVx (x : RegIdx) : Statement (.ldStVx x) :=
  ⟨⟨0xF0FF, 0xF018, fun f => .ldStVx f.x⟩, by simp [opcodeMap, rowsF0FF], matches_formatX _ _ _ _ _ rfl, by simp only [encode, formatX, fieldsOf_formatXK_x]⟩

theorem addI (x : RegIdx) : Statement (.addI x) :=
  ⟨⟨0xF0FF, 0xF01E, fun f => .addI f.x⟩, by simp [opcodeMap, rowsF0FF], matches_formatX _ _ _ _ _ rfl, by simp only [encode, formatX, fieldsOf_formatXK_x]⟩

theorem ldF (x : RegIdx) : Statement (.ldF x) :=
  ⟨⟨0xF0FF, 0xF029, fun f => .ldF f.x⟩, by simp [opcodeMap, rowsF0FF], matches_formatX _ _ _ _ _ rfl, by simp only [encode, formatX, fieldsOf_formatXK_x]⟩

theorem ldB (x : RegIdx) : Statement (.ldB x) :=
  ⟨⟨0xF0FF, 0xF033, fun f => .ldB f.x⟩, by simp [opcodeMap, rowsF0FF], matches_formatX _ _ _ _ _ rfl, by simp only [encode, formatX, fieldsOf_formatXK_x]⟩

theorem storeRegs (x : RegIdx) : Statement (.storeRegs x) :=
  ⟨⟨0xF0FF, 0xF055, fun f => .storeRegs f.x⟩, by simp [opcodeMap, rowsF0FF], matches_formatX _ _ _ _ _ rfl, by simp only [encode, formatX, fieldsOf_formatXK_x]⟩

theorem loadRegs (x : RegIdx) : Statement (.loadRegs x) :=
  ⟨⟨0xF0FF, 0xF065, fun f => .loadRegs f.x⟩, by simp [opcodeMap, rowsF0FF], matches_formatX _ _ _ _ _ rfl, by simp only [encode, formatX, fieldsOf_formatXK_x]⟩

end Sys2Proof.Laws.RowOf
end

