-- ==== Sys2Proof/Tests/Slice0.lean ====
section
/-! SUPPORT. Tests. The expected results come from the spec: words from the patterns of R84 and R85, one-step results
from the vectors of `95_test_vectors.md` section 2 (each test names its vector). After them, for each statement with
hypotheses, witnesses that meet them all together. -/

set_option maxRecDepth 4000

namespace Sys2Proof.Tests

open Sys2Proof.Machine

/-! ### Which words are well-formed: one refused word per check (R87, TC6, TC9, TC10, TC12, TC13, TC14) -/

theorem test_family0_refuses_0000 : wellFormedWord 0x0000 = false ∧ wellFormedWord 0x00EE = true := by decide
theorem test_family5_refuses_5AB1 : wellFormedWord 0x5AB1 = false ∧ wellFormedWord 0x5AB0 = true := by decide
theorem test_family8_refuses_8AB8 : wellFormedWord 0x8AB8 = false ∧ wellFormedWord 0x8ABE = true := by decide
theorem test_family9_refuses_9AB1 : wellFormedWord 0x9AB1 = false ∧ wellFormedWord 0x9AB0 = true := by decide
theorem test_familyE_refuses_E09F : wellFormedWord 0xE09F = false ∧ wellFormedWord 0xE0A1 = true := by decide
theorem test_familyF_refuses_F000 : wellFormedWord 0xF000 = false ∧ wellFormedWord 0xF065 = true := by decide

/-! ### Decoding: every constructor by a word written out from its pattern (R84, R85) -/

theorem test_decode_cls : decodeWord 0b0000000011100000 = .ok .cls := by decide
theorem test_decode_ret : decodeWord 0b0000000011101110 = .ok .ret := by decide
theorem test_decode_jp : decodeWord 0b0001101010111100 = .ok (.jp 0xABC) := by decide
theorem test_decode_call : decodeWord 0b0010001000010000 = .ok (.call 0x210) := by decide
theorem test_decode_seImm : decodeWord 0b0011101001000010 = .ok (.seImm 10 0x42) := by decide
theorem test_decode_sneImm : decodeWord 0b0100101001000010 = .ok (.sneImm 10 0x42) := by decide
theorem test_decode_seReg : decodeWord 0b0101101010110000 = .ok (.seReg 10 11) := by decide
theorem test_decode_ldImm : decodeWord 0b0110101001000010 = .ok (.ldImm 10 0x42) := by decide
theorem test_decode_addImm : decodeWord 0b0111101011111111 = .ok (.addImm 10 0xFF) := by decide
theorem test_decode_ldReg : decodeWord 0b1000101010110000 = .ok (.ldReg 10 11) := by decide
theorem test_decode_orReg : decodeWord 0b1000101010110001 = .ok (.orReg 10 11) := by decide
theorem test_decode_andReg : decodeWord 0b1000101010110010 = .ok (.andReg 10 11) := by decide
theorem test_decode_xorReg : decodeWord 0b1000101010110011 = .ok (.xorReg 10 11) := by decide
theorem test_decode_addReg : decodeWord 0b1000101010110100 = .ok (.addReg 10 11) := by decide
theorem test_decode_subReg : decodeWord 0b1000101010110101 = .ok (.subReg 10 11) := by decide
theorem test_decode_shr : decodeWord 0b1000101010110110 = .ok (.shr 10 11) := by decide
theorem test_decode_subnReg : decodeWord 0b1000101010110111 = .ok (.subnReg 10 11) := by decide
theorem test_decode_shl : decodeWord 0b1000101010111110 = .ok (.shl 10 11) := by decide
theorem test_decode_sneReg : decodeWord 0b1001101010110000 = .ok (.sneReg 10 11) := by decide
theorem test_decode_ldI : decodeWord 0b1010001011110000 = .ok (.ldI 0x2F0) := by decide
theorem test_decode_jpV0 : decodeWord 0b1011001100000000 = .ok (.jpV0 0x300) := by decide
theorem test_decode_rnd : decodeWord 0b1100101000001111 = .ok (.rnd 10 0x0F) := by decide
theorem test_decode_drw : decodeWord 0b1101010110100111 = .ok (.drw 5 10 7) := by decide
theorem test_decode_skp : decodeWord 0b1110001010011110 = .ok (.skp 2) := by decide
theorem test_decode_sknp : decodeWord 0b1110001010100001 = .ok (.sknp 2) := by decide
theorem test_decode_ldVxDt : decodeWord 0b1111010000000111 = .ok (.ldVxDt 4) := by decide
theorem test_decode_ldVxK : decodeWord 0b1111001100001010 = .ok (.ldVxK 3) := by decide
theorem test_decode_ldDtVx : decodeWord 0b1111000000010101 = .ok (.ldDtVx 0) := by decide
theorem test_decode_ldStVx : decodeWord 0b1111010100011000 = .ok (.ldStVx 5) := by decide
theorem test_decode_addI : decodeWord 0b1111001000011110 = .ok (.addI 2) := by decide
theorem test_decode_ldF : decodeWord 0b1111001100101001 = .ok (.ldF 3) := by decide
theorem test_decode_ldB : decodeWord 0b1111000000110011 = .ok (.ldB 0) := by decide
theorem test_decode_storeRegs : decodeWord 0b1111001001010101 = .ok (.storeRegs 2) := by decide
theorem test_decode_loadRegs : decodeWord 0b1111001001100101 = .ok (.loadRegs 2) := by decide

/-- The table's numbering: bit 0 is the least significant bit of the one word (R80). -/
theorem test_decode_table_word : decodeTableWord 16 0xD5A7 = some (.drw 5 10 7) ∧ decodeTableWord 16 0x00E1 = none := by
  decide

/-- An instruction is two bytes, the first the high one; one byte is too few (R56, R80). -/
theorem test_decode_bytes :
    decodeBytes [0x60, 0x05, 0x70] = .ok (.ldImm 0 5, [0x70]) ∧ decodeBytes [0x60] = .error .tooFewBytes := by decide

/-! ### One step: the helpers -/

/-- A core like the one after reset, but for the listed registers. -/
def chipWith (regs : List (RegIdx × Byte)) : Chip := regs.foldl (fun c rb => c.setReg rb.1 rb.2) Chip.reset

/-- The keypad with these keys down. -/
def keysDown (ks : List (Fin 16)) : Keypad := ks.foldl (fun k i => k.set i.val true) (Vector.replicate 16 false)

/-- The framebuffer with these cells set. -/
def fbWith (cells : List (Fin 64 × Fin 32)) : Framebuffer := cells.foldl (fun f c => setCell f c.1 c.2 true) blankFb

/-- The word placed at pc and one cycle listed with these inputs. -/
def start (op : Word) (c : Chip) (ks : List (Fin 16) := []) (rnd : Byte := 0) : State :=
  { State.reset with chip := c.placeAtPc op, host := [.cycle (keysDown ks) rnd] }

/-- What `look` sees of the state one step later, and the cycle's result code. -/
def after {α : Type} (s : State) (look : Chip → α) : Option (α × Option Result) :=
  match step s with
  | .next t => some (look t.chip, t.result)
  | .fault _ => none
  | .refused _ => none

/-! ### One step: fetch and unknown opcode -/

/-- TC2: the fetch at 0xFFF takes its second byte from 0x000; pc is not masked. -/
theorem test_fetch_wraps :
    after (start 0x6A42 { Chip.reset with pc := 0x0FFF }) (fun c => (c.reg 10, c.pc)) = some ((0x42, 0x1001), some .ok) := by
  decide

/-- TC16: an unknown opcode at the top of the pc range. -/
theorem test_unknown_opcode :
    after (start 0xFFFF { Chip.reset with pc := 0xFFFE }) (fun c => (c.pc, c.reg 15)) =
      some ((0x0000, 0x00), some (.unknownOpcode 0xFFFF)) := by decide

/-! ### One step: control transfer -/

/-- TF1 -/
theorem test_jp : after (start 0x1ABC Chip.reset) (·.pc) = some (0x0ABC, some .ok) := by decide

/-- TF5: the last free slot. -/
theorem test_call :
    after (start 0x2210 { Chip.reset with pc := 0x0300, sp := 15 }) (fun c => (c.sp, c.slot? 15, c.pc)) =
      some ((16, some 0x0300, 0x0210), some .ok) := by decide

/-- TF6: the overflow changes nothing. -/
theorem test_call_overflow :
    after (start 0x2210 { Chip.reset with pc := 0x0300, sp := 16, stack := Chip.reset.stack.set 15 0x0ABC })
      (fun c => (c.sp, c.slot? 15, c.pc)) = some ((16, some 0x0ABC, 0x0300), some .stackOverflow) := by decide

/-- TF10: the popped value plus 2 wraps; a RET at sp = 16 is legal. -/
theorem test_ret :
    after (start 0x00EE { Chip.reset with sp := 16, stack := Chip.reset.stack.set 15 0xFFFE })
      (fun c => (c.sp, c.slot? 15, c.pc)) = some ((15, some 0xFFFE, 0x0000), some .ok) := by decide

/-- TF9: the underflow changes nothing. -/
theorem test_ret_underflow :
    after (start 0x00EE { Chip.reset with pc := 0x0ABC, stack := Chip.reset.stack.set 0 0x0300 })
      (fun c => (c.sp, c.pc)) = some ((0, 0x0ABC), some .stackUnderflow) := by decide

/-- TF12, TF13 -/
theorem test_seImm :
    after (start 0x3A42 (chipWith [(10, 0x42)])) (·.pc) = some (0x0204, some .ok) ∧
    after (start 0x3A42 (chipWith [(10, 0x43)])) (·.pc) = some (0x0202, some .ok) := by decide

/-- TF14, TF15 -/
theorem test_sneImm :
    after (start 0x4A42 (chipWith [(10, 0x42)])) (·.pc) = some (0x0202, some .ok) ∧
    after (start 0x4A42 (chipWith [(10, 0x43)])) (·.pc) = some (0x0204, some .ok) := by decide

/-- TF16, TF17 -/
theorem test_seReg :
    after (start 0x5AB0 (chipWith [(10, 7), (11, 7)])) (·.pc) = some (0x0204, some .ok) ∧
    after (start 0x5AB0 (chipWith [(10, 7), (11, 8)])) (·.pc) = some (0x0202, some .ok) := by decide

/-- TF19, TF20 -/
theorem test_sneReg :
    after (start 0x9AB0 (chipWith [(10, 7), (11, 8)])) (·.pc) = some (0x0204, some .ok) ∧
    after (start 0x9AB0 (chipWith [(10, 7), (11, 7)])) (·.pc) = some (0x0202, some .ok) := by decide

/-- TF24: the sum above 0xFFF is stored whole. -/
theorem test_jpV0 : after (start 0xBFFF (chipWith [(0, 0xFF)])) (·.pc) = some (0x10FE, some .ok) := by decide

/-! ### One step: register, arithmetic and logic -/

/-- TA2: VF is an ordinary destination. -/
theorem test_ldImm : after (start 0x6F07 (chipWith [(15, 1)])) (fun c => (c.reg 15, c.pc)) = some ((7, 0x0202), some .ok) := by
  decide

/-- TA3, TA4 -/
theorem test_addImm :
    after (start 0x7A01 (chipWith [(10, 0xFF), (15, 0x55)])) (fun c => (c.reg 10, c.reg 15)) =
      some ((0x00, 0x55), some .ok) ∧
    after (start 0x7AFF (chipWith [(10, 0x05)])) (·.reg 10) = some (0x04, some .ok) := by decide

/-- TA7 -/
theorem test_ldReg :
    after (start 0x8AB0 (chipWith [(10, 0x01), (11, 0xEE)])) (fun c => (c.reg 10, c.reg 11)) =
      some ((0xEE, 0xEE), some .ok) := by decide

/-- TA9 -/
theorem test_orReg :
    after (start 0x8AB1 (chipWith [(10, 0xF0), (11, 0x3C), (15, 0x55)])) (fun c => (c.reg 10, c.reg 15)) =
      some ((0xFC, 0x55), some .ok) := by decide

/-- TA10 -/
theorem test_andReg :
    after (start 0x8AB2 (chipWith [(10, 0xF0), (11, 0x3C), (15, 0x55)])) (fun c => (c.reg 10, c.reg 15)) =
      some ((0x30, 0x55), some .ok) := by decide

/-- TA11 -/
theorem test_xorReg :
    after (start 0x8AB3 (chipWith [(10, 0xF0), (11, 0x3C), (15, 0x55)])) (fun c => (c.reg 10, c.reg 15)) =
      some ((0xCC, 0x55), some .ok) := by decide

/-- TA14: no carry at 255; TA13: carry at 256. -/
theorem test_addReg :
    after (start 0x8AB4 (chipWith [(10, 0x80), (11, 0x7F), (15, 0x55)])) (fun c => (c.reg 10, c.reg 15)) =
      some ((0xFF, 0x00), some .ok) ∧
    after (start 0x8AB4 (chipWith [(10, 0xFF), (11, 0x01), (15, 0x55)])) (fun c => (c.reg 10, c.reg 15)) =
      some ((0x00, 0x01), some .ok) := by decide

/-- TA18, TA20: VF as destination keeps the flag; VF as source is the old VF. -/
theorem test_addReg_vf :
    after (start 0x8F14 (chipWith [(1, 0x01), (15, 0xFF)])) (·.reg 15) = some (0x01, some .ok) ∧
    after (start 0x81F4 (chipWith [(1, 0x01), (15, 0xFF)])) (fun c => (c.reg 1, c.reg 15)) =
      some ((0x00, 0x01), some .ok) := by decide

/-- TA23, TA24: a borrow wraps; equal operands give flag 0. -/
theorem test_subReg :
    after (start 0x8AB5 (chipWith [(10, 0x03), (11, 0x05), (15, 0x55)])) (fun c => (c.reg 10, c.reg 15)) =
      some ((0xFE, 0x00), some .ok) ∧
    after (start 0x8AB5 (chipWith [(10, 0x05), (11, 0x05), (15, 0x55)])) (fun c => (c.reg 10, c.reg 15)) =
      some ((0x00, 0x00), some .ok) := by decide

/-- TA27, TA29 -/
theorem test_subReg_vf :
    after (start 0x8F15 (chipWith [(1, 0x03), (15, 0x09)])) (·.reg 15) = some (0x01, some .ok) ∧
    after (start 0x81F5 (chipWith [(1, 0x09), (15, 0x03)])) (fun c => (c.reg 1, c.reg 15)) =
      some ((0x06, 0x01), some .ok) := by decide

/-- TA30: y is ignored; TA32: one bit only. -/
theorem test_shr :
    after (start 0x8AB6 (chipWith [(10, 0x05), (11, 0xFF), (15, 0x55)])) (fun c => (c.reg 10, c.reg 11, c.reg 15)) =
      some ((0x02, 0xFF, 0x01), some .ok) ∧
    after (start 0x8AB6 (chipWith [(10, 0xFF)])) (fun c => (c.reg 10, c.reg 15)) = some ((0x7F, 0x01), some .ok) := by
  decide

/-- TA36, TA37 -/
theorem test_subnReg :
    after (start 0x8AB7 (chipWith [(10, 0x03), (11, 0x05), (15, 0x55)])) (fun c => (c.reg 10, c.reg 15)) =
      some ((0x02, 0x01), some .ok) ∧
    after (start 0x8AB7 (chipWith [(10, 0x05), (11, 0x03), (15, 0x55)])) (fun c => (c.reg 10, c.reg 15)) =
      some ((0xFE, 0x00), some .ok) := by decide

/-- TA40: the flag is 1, not 0x80; TA44: with x = 15 the flag stands. -/
theorem test_shl :
    after (start 0x8ABE (chipWith [(10, 0x81), (11, 0xFF), (15, 0x55)])) (fun c => (c.reg 10, c.reg 15)) =
      some ((0x02, 0x01), some .ok) ∧
    after (start 0x8F0E (chipWith [(15, 0x41)])) (·.reg 15) = some (0x00, some .ok) := by decide

/-- TA45 -/
theorem test_rnd :
    after (start 0xCA0F (chipWith [(10, 0xEE), (15, 0x55)]) [] 0xA7) (fun c => (c.reg 10, c.reg 15)) =
      some ((0x07, 0x55), some .ok) := by decide

/-! ### One step: index register and memory -/

/-- TI2 -/
theorem test_ldI : after (start 0xAFFF (Chip.reset.setI 0xFFFF)) (·.i) = some (0x0FFF, some .ok) := by decide

/-- TI4: passing 0xFFF sets no flag; TI5: the 16-bit wrap. -/
theorem test_addI :
    after (start 0xF21E ((chipWith [(2, 0x01), (15, 0x55)]).setI 0x0FFF)) (fun c => (c.i, c.reg 15)) =
      some ((0x1000, 0x55), some .ok) ∧
    after (start 0xF21E ((chipWith [(2, 0x01)]).setI 0xFFFF)) (·.i) = some (0x0000, some .ok) := by decide

/-- TI7, TI10: all eight bits of Vx are used. -/
theorem test_ldF :
    after (start 0xF329 (chipWith [(3, 0x0A)])) (·.i) = some (0x0032, some .ok) ∧
    after (start 0xF329 (chipWith [(3, 0xFF)])) (·.i) = some (0x04FB, some .ok) := by decide

/-- TI11 -/
theorem test_ldB :
    after (start 0xF033 (((chipWith [(0, 0xFE)]).setI 0x0300).store 0x300 [0xAA, 0xAA, 0xAA, 0xAA]))
      (fun c => (c.mem.readBytes 0x300 4, c.i)) = some (([0x02, 0x05, 0x04, 0xAA], 0x0300), some .ok) := by decide

/-- TI16: the ones digit lands at 0x000. -/
theorem test_ldB_wraps :
    after (start 0xF033 (((chipWith [(0, 0x7B)]).setI 0x0FFE).store 0x000 [0xAA])) (fun c => c.mem.readBytes 0xFFE 3) =
      some ([0x01, 0x02, 0x03], some .ok) := by decide

/-- TI18: V3 is not stored and I is not changed. -/
theorem test_storeRegs :
    after (start 0xF255 ((chipWith [(0, 0x11), (1, 0x22), (2, 0x33), (3, 0x44)]).setI 0x0400))
      (fun c => (c.mem.readBytes 0x400 4, c.i)) = some (([0x11, 0x22, 0x33, 0x00], 0x0400), some .ok) := by decide

/-- TI20: V8 to VF go to 0x000 to 0x007. -/
theorem test_storeRegs_wraps :
    after (start 0xFF55 ((chipWith [(7, 0xA7), (8, 0xA8), (15, 0xAF)]).setI 0x0FF8))
      (fun c => (c.mem.read 0xFFF, c.mem.read 0x000, c.mem.read 0x007)) = some ((0xA7, 0xA8, 0xAF), some .ok) := by decide

/-- TI22: V3 is not loaded and I is not changed. -/
theorem test_loadRegs :
    after (start 0xF265 (((chipWith [(3, 0x77)]).setI 0x0300).store 0x300 [0x02, 0x05, 0x04, 0x09]))
      (fun c => ([c.reg 0, c.reg 1, c.reg 2, c.reg 3], c.i)) = some (([0x02, 0x05, 0x04, 0x77], 0x0300), some .ok) := by
  decide

/-- TI25: reading the instruction's own bytes. -/
theorem test_loadRegs_own_bytes :
    after (start 0xF165 (Chip.reset.setI 0x0200)) (fun c => (c.reg 0, c.reg 1)) = some ((0xF1, 0x65), some .ok) := by decide

/-! ### One step: display -/

/-- TD1: VF is not touched. -/
theorem test_cls :
    after (start 0x00E0 ((chipWith [(15, 0x55)]).setFb (fbWith [(0, 0), (63, 31), (10, 5)])))
      (fun c => (c.fb, c.reg 15)) = some ((blankFb, 0x55), some .ok) := by decide

/-- TD12: (0,0) is set, (1,0) is erased, (2,0) is kept; the collision is reported. -/
theorem test_drw_overlap :
    after (start 0xD011 (((Chip.reset.setI 0x0300).store 0x300 [0xC0]).setFb (fbWith [(1, 0), (2, 0)])))
      (fun c => (c.fb, c.reg 15)) = some ((fbWith [(0, 0), (2, 0)], 0x01), some .ok) := by decide

/-- TD6: columns 60 to 63, then 0 to 3, and VF is written 0. -/
theorem test_drw_wraps :
    after (start 0xD011 (((chipWith [(0, 0x3C), (15, 0x55)]).setI 0x0300).store 0x300 [0xFF]))
      (fun c => (c.fb, c.reg 15)) =
      some ((fbWith [(60, 0), (61, 0), (62, 0), (63, 0), (0, 0), (1, 0), (2, 0), (3, 0)], 0x00), some .ok) := by decide

/-! ### One step: keypad and timer -/

/-- TK5, TK2 -/
theorem test_skp :
    after (start 0xE29E (chipWith [(2, 0x1A)]) [10]) (·.pc) = some (0x0204, some .ok) ∧
    after (start 0xE29E (chipWith [(2, 0x07)]) [6, 8]) (·.pc) = some (0x0202, some .ok) := by decide

/-- TK6, TK4 -/
theorem test_sknp :
    after (start 0xE2A1 (chipWith [(2, 0xF0)]) [0]) (·.pc) = some (0x0202, some .ok) ∧
    after (start 0xE2A1 (chipWith [(2, 0x07)])) (·.pc) = some (0x0204, some .ok) := by decide

/-- TK8: the lowest index wins. -/
theorem test_ldVxK :
    after (start 0xF30A (chipWith [(3, 0xEE)]) [7, 9]) (fun c => (c.reg 3, c.pc)) = some ((0x07, 0x0202), some .ok) := by
  decide

/-- TK7: no key, nothing changes. -/
theorem test_ldVxK_waits :
    after (start 0xF30A (chipWith [(3, 0xEE)])) (fun c => (c.reg 3, c.pc)) = some ((0xEE, 0x0200), some .waitKey) := by
  decide

/-- TK12 -/
theorem test_ldVxDt :
    after (start 0xF407 ((chipWith [(4, 0x01)]).setDt 60)) (fun c => (c.reg 4, c.dt)) = some ((0x3C, 60), some .ok) := by
  decide

/-- TK14 -/
theorem test_ldDtVx : after (start 0xF015 (chipWith [(0, 0x3C)])) (·.dt) = some (60, some .ok) := by decide

/-- TK16: the result is OK, not UNKNOWN_OPCODE. -/
theorem test_ldStVx :
    after (start 0xF518 ((chipWith [(5, 0x3C)]).setDt 7)) (fun c => (c.pc, c.dt)) = some ((0x0202, 7), some .ok) := by
  decide

/-! ### The other host operations -/

/-- TT1, TT2, TT3: 3, 2, 1, 0 and no wrap; 255 falls to 254. -/
theorem test_timerTick : [3, 2, 1, 0, 255].map tickDown = [2, 1, 0, 0, 254] := by decide

/-- TR1, TR2: the font's first and last bytes, the ROM, and zero after it. -/
theorem test_reset_loads :
    ((resetChip defaultFont [0x60, 0x05]).map (fun c =>
      (c.mem.readBytes 0x000 5, c.mem.readBytes 0x04B 6, c.mem.readBytes 0x1FF 4, c.pc))) =
      some ([0xF0, 0x90, 0x90, 0x90, 0xF0], [0xF0, 0x80, 0xF0, 0x80, 0x80, 0x00], [0x00, 0x60, 0x05, 0x00], 0x0200) := by
  decide

/-- R211: the numbers of the result codes. -/
theorem test_codes :
    [Result.ok, .waitKey, .unknownOpcode 0, .stackOverflow, .stackUnderflow].map Result.code = [0, 1, 2, 3, 4] ∧
    [ResetResult.resetOk, .romTooLarge 3585].map ResetResult.code = [0, 5] := by decide

/-- A word placed at pc after reset is the instruction the next step runs. -/
theorem test_placed_word_runs :
    ∃ t, step (State.reset.withFetchWord 16 0x6A42) = .next t ∧ t.chip.reg 10 = 0x42 ∧ t.chip.pc = 0x0202 :=
  ⟨_, rfl, by decide, by decide⟩

/-! ### Witnesses: states and operands that meet the hypotheses of the statements -/

/-- The reset state meets the invariant. -/
theorem reset_inv : State.reset.Inv := by
  unfold State.Inv Chip.Inv
  decide

theorem witness_EncodeOfDecode : decodeWord 0x8AB6 = .ok (.shr 10 11) ∧ decodeWord 0xF518 = .ok (.ldStVx 5) := by decide

theorem witness_DecodesExactlyTheWellFormedWords :
    wellFormedWord 0x00EE = true ∧ wellFormedWord 0x00EF = false ∧ wellFormedWord 0xFFFF = false := by decide

theorem witness_EveryRowDecodesItsWords :
    (⟨0xF00F, 0x800E, fun f => .shl f.x f.y⟩ : Row) ∈ opcodeMap ∧ (0x8FFE : Word) &&& 0xF00F = 0x800E :=
  ⟨by simp [opcodeMap, rowsF00F], by decide⟩

theorem witness_StepRunsDecodedInstruction_listed :
    decodeWord (wordOfBytes ((start 0x6005 Chip.reset).chip.mem.read (start 0x6005 Chip.reset).chip.pc.toNat)
      ((start 0x6005 Chip.reset).chip.mem.read ((start 0x6005 Chip.reset).chip.pc.toNat + 1))) = .ok (.ldImm 0 5) ∧
    (start 0x6005 Chip.reset).host = .cycle (keysDown []) 0 :: [] := by decide

theorem witness_StepRunsDecodedInstruction_unlisted :
    decodeWord (State.reset.withFetchWord 16 0x6005).chip.fetch = .ok (.ldImm 0 5) ∧
    (State.reset.withFetchWord 16 0x6005).host = [] := by decide

theorem witness_PlacedWordIsFetched : State.reset.Inv := reset_inv

theorem witness_UnknownOpcodeIsReportedAndSkipped :
    ∀ r ∈ opcodeMap, r.matchesWord State.reset.chip.fetch = false := by decide

/-- The core with this stack pointer. -/
def chipSp (sp : Byte) : Chip := { Chip.reset with sp := sp }

theorem witness_CallPushesItsOwnAddress :
    (start 0x2210 (chipSp 16)).chip.sp = 16 ∧ (start 0x2210 (chipSp 15)).chip.sp.toNat < 16 := by decide

theorem witness_RetReturnsPastTheCall :
    (start 0x00EE (chipSp 0)).chip.sp = 0 ∧
    (0 < (start 0x00EE (chipSp 16)).chip.sp.toNat ∧ (start 0x00EE (chipSp 16)).chip.stack[16 - 1]? = some 0) ∧
    (0 < (start 0x00EE (chipSp 1)).chip.sp.toNat ∧ (start 0x00EE (chipSp 1)).chip.stack[1 - 1]? = some 0) := by decide

theorem witness_CallThenRetResumesAfterTheCall :
    (start 0x2210 (chipSp 15)).chip.sp.toNat < 16 ∧
    ∃ t, exec (.call 0x210) (start 0x2210 (chipSp 15)) = .next t ∧ KeepsStack t t :=
  ⟨by decide, _, rfl, rfl, rfl⟩

/-- I at the last byte of memory, so that the stores wrap. -/
theorem witness_stores_meet_the_invariant : (start 0xF033 (Chip.reset.setI 0xFFFF)).Inv := by
  unfold State.Inv Chip.Inv
  decide

theorem witness_StoreIsSeenByTheNextFetch :
    (start 0xF155 (Chip.reset.setI 0x1202)).Inv ∧ 1 ≤ (1 : RegIdx).val ∧
    (start 0xF155 (Chip.reset.setI 0x1202)).chip.i.toNat % 4096 =
      ((start 0xF155 (Chip.reset.setI 0x1202)).chip.pc.toNat + 2) % 4096 := by
  unfold State.Inv Chip.Inv
  decide

theorem witness_WriteThenReadMasksAddresses : Memory.wf [(0x200, 0x60), (0xFFF, 0x01)] ∧ 0x1200 % 4096 = 0x200 := by
  decide

theorem witness_EqualReadsAreEqualMemories :
    Memory.wf ((Memory.write [] 0x200 1).write 0x200 0) ∧ Memory.wf [] ∧
      (Memory.write [] 0x200 1).write 0x200 0 = [] := by decide

/-- A drawn pixel that meets a set cell, at the last row and column of a sprite of 15 rows. -/
theorem witness_DrawXorsEveryPixel_collision :
    14 < (15 : Fin 16).val ∧ 7 < 8 ∧ cellAt (fbWith [(7, 14)]) (Fin.ofNat 64 (0 + 7)) (Fin.ofNat 32 (0 + 14)) = true ∧
    ((Chip.reset.setI 0x0300).store 0x30E [0x01]).mem.read (0x300 + 14) = 0x01 ∧ (0x01 : Byte).getLsbD (7 - 7) = true := by
  decide

/-- An empty framebuffer: no pixel of a sprite of 15 rows of ones can collide. -/
theorem witness_DrawXorsEveryPixel_no_collision : ∀ r c, r < (15 : Fin 16).val → c < 8 →
    (cellAt blankFb (Fin.ofNat 64 (63 + c)) (Fin.ofNat 32 (31 + r)) && (0xFF : Byte).getLsbD (7 - c)) = false := by
  intro r c _ _
  rw [cellAt_blank, Bool.false_and]

/-- A cell that a one-row sprite at (0, 0) does not cover. -/
theorem witness_DrawXorsEveryPixel_outside :
    ∀ r c, r < (1 : Fin 16).val → c < 8 → ¬ ((8 : Fin 64) = Fin.ofNat 64 (0 + c) ∧ (0 : Fin 32) = Fin.ofNat 32 (0 + r)) := by
  intro r c _ hc h
  have := congrArg Fin.val h.1
  simp only [Fin.ofNat] at this
  omega

theorem witness_PixelOrderCannotMatter :
    (List.replicate 15 (0xFF : Byte)).length ≤ 15 ∧
    (spritePixels 60 31 (List.replicate 15 0xFF)).reverse.Perm (spritePixels 60 31 (List.replicate 15 0xFF)) :=
  ⟨by decide, List.reverse_perm _⟩

theorem witness_KeyWaitTakesTheLowestKey :
    (∀ k, keyDown (keysDown []) k = false) ∧
    (keyDown (keysDown [15]) 15 = true ∧ ∀ j, j < 15 → keyDown (keysDown [15]) j = false) ∧
    (keyDown (keysDown [0, 15]) 0 = true ∧ ∀ j, j < 0 → keyDown (keysDown [0, 15]) j = false) := by decide

theorem witness_TimerTickFloorsAtZero :
    ({ State.reset with host := [.timerTick] } : State).host = .timerTick :: [] := rfl

theorem witness_UnlistedHostIsAListedOne : State.reset.host = [] ∧ ∃ t, step State.reset = .next t := ⟨rfl, _, rfl⟩

/-- An Fx0A with one cycle without a key, then one with key 5 down (X7). -/
theorem witness_KeyWaitRepeatsUntilAKeyIsDown :
    decodeWord (Chip.reset.placeAtPc 0xF30A).fetch = .ok (.ldVxK 3) ∧
    ([.cycle (keysDown []) 0, .cycle (keysDown [5]) 0] : List HostOp) =
      [(keysDown [], 0)].map (fun kr => .cycle kr.1 kr.2) ++ [.cycle (keysDown [5]) 0] ∧
    (∀ kr ∈ [(keysDown [], (0 : Byte))], ∀ j, keyDown kr.1 j = false) ∧
    keyDown (keysDown [5]) 5 = true ∧ ∀ j, j < 5 → keyDown (keysDown [5]) j = false := by decide

/-- The largest ROM, and a ROM one byte longer (TR3, TR4). -/
theorem witness_ResetLoadsFontAndRom : (List.replicate 3584 (0xAB : Byte)).length ≤ 3584 := by
  simp only [List.length_replicate]
  decide

theorem witness_RomTooLargeLeavesNoState :
    ({ State.reset with host := [.reset defaultFont (List.replicate 3585 0xAB)] } : State).host =
      .reset defaultFont (List.replicate 3585 0xAB) :: [] ∧ 3584 < (List.replicate 3585 (0xAB : Byte)).length := by
  refine ⟨rfl, ?_⟩
  simp only [List.length_replicate]
  decide

theorem witness_EveryStepKeepsTheInvariant : State.reset.Inv ∧ ∃ t, step State.reset = .next t := ⟨reset_inv, _, rfl⟩

theorem witness_NoStepStopsButATooLargeRom : State.reset.Inv ∧ ¬ State.reset.RomTooLargeNext :=
  ⟨reset_inv, fun h => by obtain ⟨_, _, _, h, _⟩ := h; cases h⟩

/-- For the statements over every instruction and next state: 8xy4, which writes a register and the flag. -/
theorem witness_exec_next : ∃ t, exec (.addReg 1 2) State.reset = .next t ∧ t.result = some .ok := ⟨_, rfl, rfl⟩

/-- The forms that the statements on `stack`, `sp`, `I`, memory, framebuffer, timer and pc exclude are not 8xy4. -/
theorem witness_exclusions :
    (∀ nnn, Instr.addReg 1 2 ≠ .call nnn) ∧ Instr.addReg 1 2 ≠ .ret ∧ (∀ nnn, Instr.addReg 1 2 ≠ .jp nnn) ∧
    (∀ nnn, Instr.addReg 1 2 ≠ .jpV0 nnn) ∧ (∀ nnn, Instr.addReg 1 2 ≠ .ldI nnn) ∧ (∀ x, Instr.addReg 1 2 ≠ .addI x) ∧
    (∀ x, Instr.addReg 1 2 ≠ .ldF x) ∧ (∀ x, Instr.addReg 1 2 ≠ .ldB x) ∧ (∀ x, Instr.addReg 1 2 ≠ .storeRegs x) ∧
    Instr.addReg 1 2 ≠ .cls ∧ (∀ x y n, Instr.addReg 1 2 ≠ .drw x y n) ∧ (∀ x, Instr.addReg 1 2 ≠ .ldDtVx x) ∧
    (∀ x, Instr.addReg 1 2 ≠ .skp x) ∧ (∀ x, Instr.addReg 1 2 ≠ .sknp x) ∧ (∀ x, Instr.addReg 1 2 ≠ .ldVxK x) ∧
    (∀ x kk, Instr.addReg 1 2 ≠ .rnd x kk) := by
  refine ⟨?_, ?_, ?_, ?_, ?_, ?_, ?_, ?_, ?_, ?_, ?_, ?_, ?_, ?_, ?_, ?_⟩ <;> intros <;> exact Instr.noConfusion

/-- A CALL at sp = 16 and a RET at sp = 0 are stack errors, and no Reset is listed. -/
theorem witness_StackErrorsRecurUntilReset :
    (StackErrorAt .stackOverflow (start 0x2210 (chipSp 16)) ∧ NoReset (start 0x2210 (chipSp 16))) ∧
    (StackErrorAt .stackUnderflow (start 0x00EE (chipSp 0)) ∧ NoReset (start 0x00EE (chipSp 0))) := by
  refine ⟨⟨.inl ⟨rfl, rfl, 0x210, by decide⟩, ?_⟩, .inr ⟨rfl, rfl, by decide⟩, ?_⟩ <;>
    exact fun _ _ h => by cases h with | tail _ h => cases h

/-- P1's last instruction: 120C at 0x20C. -/
theorem witness_JumpToItselfIsFinished :
    decodeWord (({ Chip.reset with pc := 0x020C } : Chip).placeAtPc 0x120C).fetch = .ok (.jp 0x20C) ∧
    (0x020C : Word).toNat = (0x20C : Addr).toNat := by decide

end Sys2Proof.Tests
end

section
/-! PROOFS of the statements on the state (`10_state.md`). The one idea: every next state of an instruction is reached
by primitive updates of the core, and each kind of update has its own few writers (`Updates`, `exec_updates`). What an
instruction leaves alone, and the invariant, are then inductions over the kinds of update. -/

namespace Sys2Proof.Machine

/-! ### Which updates an instruction makes -/

/-- The cores that come from `c` by updates the instruction `i` may make: pc by every instruction, every other item
only by its writers; a push only with a free slot, a pop only with a used one. -/
inductive Updates (i : Instr) (c : Chip) : Chip → Prop
  | refl : Updates i c c
  | pc {d : Chip} (w : Word) : Updates i c d → Updates i c (d.setPc w)
  | reg {d : Chip} (x : RegIdx) (b : Byte) (hw : Written i x) : Updates i c d → Updates i c (d.setReg x b)
  | index {d : Chip} (w : Word) (hw : (∃ nnn, i = .ldI nnn) ∨ (∃ x, i = .addI x) ∨ ∃ x, i = .ldF x) :
      Updates i c d → Updates i c (d.setI w)
  | dt {d : Chip} (b : Byte) (hw : ∃ x, i = .ldDtVx x) : Updates i c d → Updates i c (d.setDt b)
  | store {d : Chip} (a : Nat) (bs : List Byte) (hw : (∃ x, i = .ldB x) ∨ ∃ x, i = .storeRegs x) :
      Updates i c d → Updates i c (d.store a bs)
  | fb {d : Chip} (f : Framebuffer) (hw : i = .cls ∨ ∃ x y n, i = .drw x y n) :
      Updates i c d → Updates i c (d.setFb f)
  | push {d : Chip} (w : Word) (hw : ∃ nnn, i = .call nnn) (hsp : d.sp.toNat < stackDepth) :
      Updates i c d → Updates i c (d.push w)
  | drop {d : Chip} (hw : i = .ret) (hsp : d.sp ≠ 0) : Updates i c d → Updates i c d.drop

/-- A run of register writes is such an update when the instruction may write each of the registers. -/
theorem Updates.regs {i : Instr} {c d : Chip} {rs : List RegIdx} (bs : List Byte) (hw : ∀ r ∈ rs, Written i r)
    (h : Updates i c d) : Updates i c (d.setRegs rs bs) := by
  induction rs generalizing d bs with
  | nil => exact h
  | cons r rs ih =>
    obtain ⟨hr, hrs⟩ := List.forall_mem_cons.mp hw
    cases bs with
    | nil => exact h
    | cons b bs => exact ih bs hrs (h.reg r b hr)

/-- Whatever instruction ends with a next state, it got there by its own updates. -/
theorem exec_updates {i : Instr} {s t : State} (h : exec i s = .next t) : Updates i s.chip t.chip := by
  cases i with
  | jp nnn | jpV0 nnn | seImm x kk | sneImm x kk | seReg x y | sneReg x y | skp x | sknp x | ldStVx x =>
    cases h; exact .pc _ .refl
  | ldImm x kk | addImm x kk | ldReg x y | orReg x y | andReg x y | xorReg x y | rnd x kk | ldVxDt x =>
    cases h; exact .pc _ (.reg x _ rfl .refl)
  | addReg x y | subReg x y | shr x y | subnReg x y | shl x y =>
    cases h; exact .pc _ (.reg vf _ (.inr rfl) (.reg x _ (.inl rfl) .refl))
  | loadRegs x => cases h; exact .pc _ (.regs _ (fun _ hr => mem_regsUpTo.mp hr) .refl)
  | ldI nnn => cases h; exact .pc _ (.index _ (.inl ⟨nnn, rfl⟩) .refl)
  | addI x => cases h; exact .pc _ (.index _ (.inr (.inl ⟨x, rfl⟩)) .refl)
  | ldF x => cases h; exact .pc _ (.index _ (.inr (.inr ⟨x, rfl⟩)) .refl)
  | ldDtVx x => cases h; exact .pc _ (.dt _ ⟨x, rfl⟩ .refl)
  | ldB x => cases h; exact .pc _ (.store _ _ (.inl ⟨x, rfl⟩) .refl)
  | storeRegs x => cases h; exact .pc _ (.store _ _ (.inr ⟨x, rfl⟩) .refl)
  | cls => cases h; exact .pc _ (.fb _ (.inl rfl) .refl)
  | drw x y n => cases h; exact .pc _ (.reg vf _ rfl (.fb _ (.inr ⟨x, y, n, rfl⟩) .refl))
  | ret =>
    rcases execRet_cases s with ⟨_, e⟩ | ⟨_, hsp, _, e⟩ | ⟨_, e⟩ <;> cases e.symm.trans h
    · exact .refl
    · exact .pc _ (.drop rfl hsp .refl)
  | call nnn =>
    rcases execCall_cases nnn s with ⟨_, e⟩ | ⟨hsp, e⟩ | ⟨_, e⟩ <;> cases e.symm.trans h
    · exact .refl
    · exact .pc _ (.push _ ⟨nnn, rfl⟩ hsp .refl)
  | ldVxK x =>
    rcases execLdVxK_cases x s with ⟨_, e⟩ | ⟨_, _, e⟩ <;> cases e.symm.trans h
    · exact .refl
    · exact .pc _ (.reg x _ rfl .refl)

/-! ### What an instruction leaves alone: each item but for its writers

In each induction the updates of the item itself are excluded by hypothesis; every other update leaves the item as it
is by definition, so the induction hypothesis is the goal. -/

section
variable {i : Instr} {c d : Chip}

theorem Updates.reg_eq (h : Updates i c d) {r : RegIdx} (hr : ¬ Written i r) : d.reg r = c.reg r := by
  induction h with
  | refl => rfl
  | @reg d x b hw _ ih =>
    have hne : r ≠ x := fun e => hr (e ▸ hw)
    exact (d.setReg_reg_of_ne b hne).trans ih
  | _ => assumption

theorem Updates.stack_eq (h : Updates i c d) (hc : ∀ nnn, i ≠ .call nnn) : d.stack = c.stack := by
  induction h with
  | refl => rfl
  | push _ hw => exact absurd hw (not_exists.mpr hc)
  | _ => assumption

theorem Updates.sp_eq (h : Updates i c d) (hc : ∀ nnn, i ≠ .call nnn) (hr : i ≠ .ret) : d.sp = c.sp := by
  induction h with
  | refl => rfl
  | push _ hw => exact absurd hw (not_exists.mpr hc)
  | drop hw => exact absurd hw hr
  | _ => assumption

theorem Updates.mem_eq (h : Updates i c d) (hb : ∀ x, i ≠ .ldB x) (hs : ∀ x, i ≠ .storeRegs x) : d.mem = c.mem := by
  induction h with
  | refl => rfl
  | store _ _ hw => exact absurd hw (not_or.mpr ⟨not_exists.mpr hb, not_exists.mpr hs⟩)
  | _ => assumption

theorem Updates.fb_eq (h : Updates i c d) (hc : i ≠ .cls) (hd : ∀ x y n, i ≠ .drw x y n) : d.fb = c.fb := by
  induction h with
  | refl => rfl
  | fb _ hw =>
    rcases hw with hw | ⟨x, y, n, hw⟩
    · exact absurd hw hc
    · exact absurd hw (hd x y n)
  | _ => assumption

theorem Updates.dt_eq (h : Updates i c d) (hd : ∀ x, i ≠ .ldDtVx x) : d.dt = c.dt := by
  induction h with
  | refl => rfl
  | dt _ hw => exact absurd hw (not_exists.mpr hd)
  | _ => assumption

end

/-! ### The flag (R22) -/

theorem flagByte_eq_zero_or_one (b : Bool) : flagByte b = 0 ∨ flagByte b = 1 := by
  cases b
  · exact .inl rfl
  · exact .inr rfl

/-- The last register write of the six instructions of R22's table is the flag's, so VF holds it with x = 15 too
(R108). -/
theorem exec_vf_eq_flagByte {i : Instr} {s t : State} (hf : WritesFlag i) (h : exec i s = .next t) :
    ∃ b, t.chip.reg vf = flagByte b := by
  rcases hf with ⟨x, y, rfl | rfl | rfl | rfl | rfl⟩ | ⟨x, y, n, rfl⟩ <;> cases h <;>
    exact ⟨_, Chip.setReg_reg_self ..⟩

/-! ### The invariant (R26, R35) -/

/-- A push needs a free slot and a pop a used one, so sp stays in 0 to 16; a store keeps the canonical form. -/
theorem Updates.inv {i : Instr} {c d : Chip} (h : Updates i c d) (hc : c.Inv) : d.Inv := by
  induction h with
  | refl => exact hc
  | store a bs _ _ ih => exact ⟨ih.1, Memory.wf_writeBytes ih.2 a bs⟩
  | @push d w _ hsp _ ih =>
    refine ⟨?_, ih.2⟩
    simp only [Chip.push_sp, stackDepth] at hsp ⊢
    bv_omega
  | @drop d _ hsp _ ih =>
    refine ⟨?_, ih.2⟩
    have hle := ih.1
    simp only [Chip.drop_sp, stackDepth] at hle ⊢
    bv_omega
  | _ => assumption

theorem cycle_keeps_inv {s t : State} (hs : s.Inv) (h : cycle s = .next t) : t.Inv := by
  rcases cycle_cases s with ⟨i, _, e⟩ | ⟨_, e⟩
  · exact (exec_updates (e.symm.trans h)).inv hs
  · cases e.symm.trans h
    exact hs

/-- Reset builds its memory by writes to the empty one, whatever FONT and ROM are. -/
theorem resetChip_inv {font : Font} {rom : List Byte} {c : Chip} (h : resetChip font rom = some c) : c.Inv := by
  unfold resetChip at h
  split at h
  · cases h
  · cases h
    exact ⟨Nat.zero_le _, Memory.wf_writeBytes (Memory.wf_writeBytes Memory.wf_nil _ _) _ _⟩

theorem resetOp_inv {font : Font} {rom : List Byte} {s t : State} (h : resetOp font rom s = .next t) : t.Inv := by
  unfold resetOp at h
  split at h
  next c hc =>
    cases h
    exact resetChip_inv hc
  next => cases h

theorem cycleOp_keeps_inv {key : Keypad} {rnd : Byte} {s t : State} (hs : s.Inv) (h : cycleOp key rnd s = .next t) :
    t.Inv :=
  cycle_keeps_inv (s := s.present key rnd) hs h

theorem State.timerTicks_inv {n : Nat} {s : State} : (s.timerTicks n).Inv ↔ s.Inv := Iff.rfl

theorem runOp_keeps_inv {op : HostOp} {s t : State} (hs : s.Inv) (h : runOp op s = .next t) : t.Inv := by
  cases op with
  | cycle key rnd => exact cycleOp_keeps_inv hs h
  | timerTick => cases h; exact hs
  | reset font rom => exact resetOp_inv h

theorem freeRun_keeps_inv {s t : State} (hs : s.Inv) (h : freeRun s = .next t) : t.Inv := by
  obtain ⟨u, hu, rfl⟩ := thenTicks_next h
  exact State.timerTicks_inv.mpr (cycleOp_keeps_inv (s := { s with turn := s.turn + 1 }) hs hu)

/-! ### Memory at reset -/

theorem Memory.unlisted_of_lt {a : Nat} (h : a < fontBytes) : Memory.unlisted a = defaultFont[a] := dif_pos h

theorem Memory.unlisted_of_le {a : Nat} (h : fontBytes ≤ a) : Memory.unlisted a = 0 := dif_neg (Nat.not_lt.mpr h)

/-- At reset nothing is listed, so every address reads as an unlisted one. -/
theorem reset_mem_read {a : Nat} (h : a < memSize) : State.reset.chip.mem.read a = Memory.unlisted a :=
  congrArg Memory.unlisted (Nat.mod_eq_of_lt h)

/-! ### The statements -/

/-- Settles O44, by cases on the host's next operation; a cycle's instruction keeps the invariant by induction over
its updates. -/
theorem everyStepKeepsTheInvariant : Obligations.EveryStepKeepsTheInvariant := by
  intro s t hs h
  cases hh : s.host with
  | nil => exact freeRun_keeps_inv hs (step_unlisted s hh ▸ h)
  | cons op rest => exact runOp_keeps_inv (s := { s with host := rest }) hs (step_listed op rest s hh ▸ h)

/-- Settles O46, by the updates of registers and by the flag's being written last. -/
theorem onlyDestinationsAndFlagsAreWritten : Obligations.OnlyDestinationsAndFlagsAreWritten := by
  intro i s t h
  refine ⟨fun _ hr => (exec_updates h).reg_eq hr, fun hf => ?_⟩
  obtain ⟨b, hb⟩ := exec_vf_eq_flagByte hf h
  exact (flagByte_eq_zero_or_one b).imp hb.trans hb.trans

/-- Settles O47, by the updates of the slots and of sp. -/
theorem onlyCallAndRetMoveTheStack : Obligations.OnlyCallAndRetMoveTheStack := fun _ _ _ h =>
  ⟨(exec_updates h).stack_eq, (exec_updates h).sp_eq⟩

/-- Settles O49, by the updates of memory, the framebuffer and the timer. -/
theorem onlyTheirWritersTouchMemoryDisplayTimer : Obligations.OnlyTheirWritersTouchMemoryDisplayTimer :=
  fun _ _ _ h =>
    ⟨fun hb hs a => congrArg (Memory.read · a) ((exec_updates h).mem_eq hb hs), (exec_updates h).fb_eq,
      (exec_updates h).dt_eq⟩

/-- Settles O40, item by item; memory reads as its unlisted addresses do. -/
theorem resetStateHoldsTheTableOfValues : Obligations.ResetStateHoldsTheTableOfValues := by
  refine ⟨fun r => ?reg, rfl, rfl, rfl, rfl, fun k hk => ?slot, cellAt_blank, rfl, fun k hk => ?font,
    fun a ha ha' => ?zero⟩
  case reg => exact Vector.getElem_replicate r.isLt
  case slot => exact Vector.getElem?_replicate.trans (if_pos hk)
  case font => exact (reset_mem_read (hk.trans (by decide))).trans (Memory.unlisted_of_lt hk)
  case zero => exact (reset_mem_read ha').trans (Memory.unlisted_of_le ha)

/-- Settles O43: sp is 0 and no address is listed. -/
theorem invariantHoldsAtReset : Obligations.InvariantHoldsAtReset := ⟨Nat.zero_le _, Memory.wf_nil⟩

end Sys2Proof.Machine
end

section
/-! PROOFS of the statements on memory (`20_memory.md`). A masked read after a write, or after a run of writes, is the
laws of `lookup` under the mask. In the canonical form the listed cells are exactly the addresses that do not read as
unlisted ones, so what a memory reads as fixes the list. -/

namespace Sys2Proof.Machine

/-! ### Masked reads, and reads after writes -/

theorem Memory.read_of_lt (m : Memory) {a : Nat} (h : a < memSize) : m.read a = m.lookup a :=
  congrArg m.lookup (Nat.mod_eq_of_lt h)

/-- A read after one write, both addresses masked (R52). -/
theorem Memory.read_write {m : Memory} (h : m.wf) (a b : Nat) (v : Byte) :
    (m.write a v).read b = if a % memSize = b % memSize then v else m.read b := by
  simp only [Memory.read, Memory.lookup_write h, eq_comm (a := b % memSize)]

/-- Any address that masks to that of the k-th byte of a run of writes reads that byte. -/
theorem Memory.read_writeBytes_at {m : Memory} (h : m.wf) {addr b k : Nat} {bs : List Byte} {v : Byte}
    (hl : bs.length ≤ memSize) (hk : bs[k]? = some v) (hb : b % memSize = (addr + k) % memSize) :
    (m.writeBytes addr bs).read b = v :=
  (congrArg (m.writeBytes addr bs).lookup hb).trans (Memory.lookup_writeBytes_at h addr hl hk)

/-- After Fx55, any address that masks to I + r reads V[r], for each register r up to x (R164). -/
theorem read_store_regsUpTo {c : Chip} (h : c.mem.wf) {x r : RegIdx} (hr : r ≤ x) {b : Nat}
    (hb : b % memSize = (c.i.toNat + r.val) % memSize) :
    (c.store c.i.toNat ((regsUpTo x).map c.reg)).mem.read b = c.reg r := by
  refine Memory.read_writeBytes_at h (k := r.val) ?_ ?_ hb
  · simp only [List.length_map, regsUpTo_length, memSize]
    omega
  · simp only [List.getElem?_map, regsUpTo_getElem? x r.val hr, Fin.ofNat_val_eq_self, Option.map_some]

/-! ### The two bytes of a fetched word (R56) -/

theorem wordOfBytes_high (a b : Byte) : (wordOfBytes a b).extractLsb' 8 8 = a := by
  apply BitVec.eq_of_toNat_eq
  simp only [BitVec.extractLsb'_toNat, toNat_wordOfBytes, Nat.shiftRight_eq_div_pow]
  omega

theorem wordOfBytes_low (a b : Byte) : (wordOfBytes a b).extractLsb' 0 8 = b := by
  apply BitVec.eq_of_toNat_eq
  simp only [BitVec.extractLsb'_toNat, toNat_wordOfBytes, Nat.shiftRight_eq_div_pow]
  omega

theorem Chip.fetch_eq (c : Chip) : c.fetch = wordOfBytes (c.mem.read c.pc.toNat) (c.mem.read (c.pc.toNat + 1)) := rfl

/-! ### The canonical form is fixed by what it reads as -/

/-- A byte that is found is either the default of its address or listed there. -/
theorem Memory.lookup_eq_unlisted_or_mem (m : Memory) (a : Nat) :
    m.lookup a = Memory.unlisted a ∨ (a, m.lookup a) ∈ m := by
  induction m with
  | nil => exact .inl rfl
  | cons c m ih =>
    simp only [Memory.lookup]
    split
    next hac => exact .inr (hac ▸ List.mem_cons_self ..)
    next => exact ih.imp_right (List.mem_cons_of_mem _)

/-- When addresses rise, the byte listed at an address is the byte found there. -/
theorem Memory.lookup_of_mem {m : Memory} (h : m.Pairwise (fun c d => c.1 < d.1)) {c : Host.Cell} (hc : c ∈ m) :
    m.lookup c.1 = c.2 := by
  induction m with
  | nil => cases hc
  | cons d m ih =>
    obtain ⟨hd, hm⟩ := List.pairwise_cons.mp h
    rcases List.mem_cons.mp hc with rfl | hc
    · exact if_pos rfl
    · exact (if_neg (hd c hc).ne').trans (ih hm hc)

/-- The cells listed in the canonical form are the addresses that read as something else than unlisted ones. -/
theorem Memory.mem_iff_lookup {m : Memory} (h : m.wf) (c : Host.Cell) :
    c ∈ m ↔ c.1 < memSize ∧ c.2 ≠ Memory.unlisted c.1 ∧ m.lookup c.1 = c.2 := by
  constructor
  · intro hc
    obtain ⟨hlt, hne⟩ := h.2 c hc
    exact ⟨hlt, hne, Memory.lookup_of_mem h.1 hc⟩
  · rintro ⟨-, hne, hc⟩
    rcases m.lookup_eq_unlisted_or_mem c.1 with hu | hmem
    · exact absurd (hc.symm.trans hu) hne
    · rwa [hc] at hmem

/-- Two lists of cells with rising addresses and the same members are the same list. -/
theorem Memory.eq_of_rising_of_mem_iff {m n : Memory} (hm : m.Pairwise (fun c d => c.1 < d.1))
    (hn : n.Pairwise (fun c d => c.1 < d.1)) (h : ∀ c, c ∈ m ↔ c ∈ n) : m = n :=
  haveI : Std.Irrefl fun c d : Host.Cell => c.1 < d.1 := ⟨fun c => lt_irrefl c.1⟩
  haveI : Std.Antisymm fun c d : Host.Cell => c.1 < d.1 := ⟨fun _ _ hcd hdc => absurd hdc hcd.asymm⟩
  hm.eq_of_mem_iff hn h

/-! ### The statements -/

/-- Settles O28: pc + 2 and I mask to the same address, so the two bytes fetched are the first two stored. -/
theorem storeIsSeenByTheNextFetch : Obligations.StoreIsSeenByTheNextFetch := by
  intro s x hs hx hi
  refine ⟨_, rfl, ?_⟩
  have hpc : (s.chip.pc + 2).toNat % memSize = s.chip.i.toNat % memSize := by
    simp only [BitVec.toNat_add, BitVec.reduceToNat, memSize]
    omega
  have hfirst := read_store_regsUpTo hs.2 (x := x) (Fin.zero_le x) hpc
  have hsecond := read_store_regsUpTo hs.2 (r := 1) hx (Nat.ModEq.add_right 1 hpc)
  exact congrArg₂ wordOfBytes hfirst hsecond

/-- Settles O30: in the canonical form the reads decide which cells are listed. -/
theorem equalReadsAreEqualMemories : Obligations.EqualReadsAreEqualMemories := by
  intro m n hm hn h
  refine Memory.eq_of_rising_of_mem_iff hm.1 hn.1 fun c => ?_
  rw [Memory.mem_iff_lookup hm, Memory.mem_iff_lookup hn]
  refine and_congr_right fun hc => ?_
  rw [← m.read_of_lt hc, ← n.read_of_lt hc, h c.1 hc]

/-- Settles O7: the fetch is the word of the two masked reads, and a word gives its two bytes back. -/
theorem fetchIsBigEndianAndMasked : Obligations.FetchIsBigEndianAndMasked := by
  intro c
  rw [c.fetch_eq]
  exact ⟨wordOfBytes_high .., wordOfBytes_low ..⟩

/-- Settles O29, by the law of a masked read after a masked write. -/
theorem writeThenReadMasksAddresses : Obligations.WriteThenReadMasksAddresses := fun _ a b v h =>
  Memory.read_write h a b v

end Sys2Proof.Machine
end

section
/-! PROOFS of the statements on the encoding (`30_encoding.md`). The one idea: two rows whose patterns disagree on a bit
that both masks fix match no common word, so the row that matches a word is the one the decoder finds, wherever it
stands in the map. A round trip, in either direction, is then a fact about one row at a time. -/

namespace Sys2Proof

/-! ### No word matches two rows (R86) -/

/-- Two rows disagree when their patterns differ on the bits that both masks fix. -/
def Row.Disagrees (r q : Row) : Prop := r.pat &&& q.mask ≠ q.pat &&& r.mask

theorem Row.matchesWord_iff_and_mask (r : Row) (op : Word) : r.matchesWord op = true ↔ op &&& r.mask = r.pat :=
  beq_iff_eq

/-- A word that matches both rows has the bits of both patterns where both masks fix them. -/
theorem Row.Disagrees.not_both_match {r q : Row} (h : r.Disagrees q) (op : Word) :
    ¬ (r.matchesWord op = true ∧ q.matchesWord op = true) := by
  rintro ⟨hr, hq⟩
  rw [Row.matchesWord_iff_and_mask] at hr hq
  refine h ?_
  rw [← hr, ← hq, BitVec.and_assoc, BitVec.and_assoc, BitVec.and_comm r.mask]

theorem opcodeMap_pairwise_disagrees : opcodeMap.Pairwise Row.Disagrees := by
  unfold Row.Disagrees
  decide

/-! ### The decoder finds the row that matches (R102) -/

theorem decodeWord_of_matchesWord {r : Row} {op : Word} (hr : r ∈ opcodeMap) (h : r.matchesWord op = true) :
    decodeWord op = .ok (r.build (fieldsOf op)) := by
  obtain ⟨before, after, hmap⟩ := List.append_of_mem hr
  have hbefore : ∀ q ∈ before, q.Disagrees r := fun q hq =>
    (List.pairwise_append.mp (hmap ▸ opcodeMap_pairwise_disagrees)).2.2 q hq r List.mem_cons_self
  have hfind : opcodeMap.find? (fun q => q.matchesWord op) = some r := by
    refine List.find?_eq_some_iff_append.mpr ⟨h, before, after, hmap, fun q hq => ?_⟩
    simpa using fun hq' => (hbefore q hq).not_both_match op ⟨hq', h⟩
  rw [decodeWord, hfind]

theorem decodeWord_of_no_match {op : Word} (h : ¬ ∃ r ∈ opcodeMap, r.matchesWord op = true) :
    decodeWord op = .error (.unknownOpcode op) := by
  have hfind : opcodeMap.find? (fun q => q.matchesWord op) = none :=
    List.find?_eq_none.mpr fun q hq hm => h ⟨q, hq, hm⟩
  rw [decodeWord, hfind]

theorem exists_row_of_decodeWord {op : Word} {i : Instr} (h : decodeWord op = .ok i) :
    ∃ r ∈ opcodeMap, r.matchesWord op = true ∧ r.build (fieldsOf op) = i := by
  by_cases hm : ∃ r ∈ opcodeMap, r.matchesWord op = true
  · obtain ⟨r, hr, hop⟩ := hm
    exact ⟨r, hr, hop, Except.ok.inj ((decodeWord_of_matchesWord hr hop).symm.trans h)⟩
  · cases (decodeWord_of_no_match hm).symm.trans h

/-! ### From an instruction to its word and back -/

theorem exists_row_of_encode (i : Instr) : Laws.RowOf.Statement i := by
  cases i with
  | cls => exact Laws.RowOf.cls
  | ret => exact Laws.RowOf.ret
  | jp nnn => exact Laws.RowOf.jp nnn
  | call nnn => exact Laws.RowOf.call nnn
  | seImm x kk => exact Laws.RowOf.seImm x kk
  | sneImm x kk => exact Laws.RowOf.sneImm x kk
  | seReg x y => exact Laws.RowOf.seReg x y
  | ldImm x kk => exact Laws.RowOf.ldImm x kk
  | addImm x kk => exact Laws.RowOf.addImm x kk
  | ldReg x y => exact Laws.RowOf.ldReg x y
  | orReg x y => exact Laws.RowOf.orReg x y
  | andReg x y => exact Laws.RowOf.andReg x y
  | xorReg x y => exact Laws.RowOf.xorReg x y
  | addReg x y => exact Laws.RowOf.addReg x y
  | subReg x y => exact Laws.RowOf.subReg x y
  | shr x y => exact Laws.RowOf.shr x y
  | subnReg x y => exact Laws.RowOf.subnReg x y
  | shl x y => exact Laws.RowOf.shl x y
  | sneReg x y => exact Laws.RowOf.sneReg x y
  | ldI nnn => exact Laws.RowOf.ldI nnn
  | jpV0 nnn => exact Laws.RowOf.jpV0 nnn
  | rnd x kk => exact Laws.RowOf.rnd x kk
  | drw x y n => exact Laws.RowOf.drw x y n
  | skp x => exact Laws.RowOf.skp x
  | sknp x => exact Laws.RowOf.sknp x
  | ldVxDt x => exact Laws.RowOf.ldVxDt x
  | ldVxK x => exact Laws.RowOf.ldVxK x
  | ldDtVx x => exact Laws.RowOf.ldDtVx x
  | ldStVx x => exact Laws.RowOf.ldStVx x
  | addI x => exact Laws.RowOf.addI x
  | ldF x => exact Laws.RowOf.ldF x
  | ldB x => exact Laws.RowOf.ldB x
  | storeRegs x => exact Laws.RowOf.storeRegs x
  | loadRegs x => exact Laws.RowOf.loadRegs x

theorem decodeWord_encode (i : Instr) : decodeWord (encode i) = .ok i := by
  obtain ⟨r, hr, hm, hb⟩ := exists_row_of_encode i
  rw [decodeWord_of_matchesWord hr hm, hb]

theorem decodeBytes_bytesOfWord_append {op : Word} {i : Instr} (h : decodeWord op = .ok i) (rest : List Byte) :
    decodeBytes (bytesOfWord op ++ rest) = .ok (i, rest) := by
  simp only [bytesOfWord, List.cons_append, List.nil_append, decodeBytes, wordOfBytes_bytes, h]

/-! ### The arithmetic of a match, mask by mask -/

theorem matchesWord_F000_iff {op pat : Word} {b : Fields → Instr} :
    Row.matchesWord ⟨0xF000, pat, b⟩ op = true ↔ op.toNat / 4096 * 4096 = pat.toNat :=
  (Row.matchesWord_iff _ op).trans (Eq.congr_left (toNat_and_F000 op))

theorem matchesWord_F00F_iff {op pat : Word} {b : Fields → Instr} :
    Row.matchesWord ⟨0xF00F, pat, b⟩ op = true ↔ op.toNat / 4096 * 4096 + op.toNat % 16 = pat.toNat :=
  (Row.matchesWord_iff _ op).trans (Eq.congr_left (toNat_and_F00F op))

theorem matchesWord_F0FF_iff {op pat : Word} {b : Fields → Instr} :
    Row.matchesWord ⟨0xF0FF, pat, b⟩ op = true ↔ op.toNat / 4096 * 4096 + op.toNat % 256 = pat.toNat :=
  (Row.matchesWord_iff _ op).trans (Eq.congr_left (toNat_and_F0FF op))

theorem matchesWord_FFFF_iff {op pat : Word} {b : Fields → Instr} :
    Row.matchesWord ⟨0xFFFF, pat, b⟩ op = true ↔ op = pat := by
  rw [Row.matchesWord_iff_and_mask]
  exact Eq.congr_left BitVec.and_allOnes

/-! ### From a word to its instruction and back: a format holds every bit of the words of its rows (R81) -/

section
variable {op pat : Word} {b : Fields → Instr} {o : BitVec 4}

theorem nibble0_of_match_F000 (hp : pat.toNat = o.toNat * 4096) (h : Row.matchesWord ⟨0xF000, pat, b⟩ op = true) :
    op.toNat / 4096 = o.toNat :=
  Nat.eq_of_mul_eq_mul_right (by decide) ((matchesWord_F000_iff.mp h).trans hp)

theorem fixed_of_match_F00F {s : BitVec 4} (hp : pat.toNat = o.toNat * 4096 + s.toNat)
    (h : Row.matchesWord ⟨0xF00F, pat, b⟩ op = true) : op.toNat / 4096 = o.toNat ∧ op.toNat % 16 = s.toNat := by
  have hsum := (matchesWord_F00F_iff.mp h).trans hp
  constructor <;> omega

theorem fixed_of_match_F0FF {s : Byte} (hp : pat.toNat = o.toNat * 4096 + s.toNat)
    (h : Row.matchesWord ⟨0xF0FF, pat, b⟩ op = true) : op.toNat / 4096 = o.toNat ∧ op.toNat % 256 = s.toNat := by
  have hsum := (matchesWord_F0FF_iff.mp h).trans hp
  constructor <;> omega

theorem formatA_fieldsOf (hp : pat.toNat = o.toNat * 4096) (h : Row.matchesWord ⟨0xF000, pat, b⟩ op = true) :
    formatA o (fieldsOf op).nnn = op := by
  apply BitVec.eq_of_toNat_eq
  have ho := nibble0_of_match_F000 hp h
  rw [toNat_formatA, fieldsOf_nnn]
  omega

theorem formatXK_fieldsOf (hp : pat.toNat = o.toNat * 4096) (h : Row.matchesWord ⟨0xF000, pat, b⟩ op = true) :
    formatXK o (fieldsOf op).x (fieldsOf op).kk = op := by
  apply BitVec.eq_of_toNat_eq
  have ho := nibble0_of_match_F000 hp h
  rw [toNat_formatXK, fieldsOf_x, fieldsOf_kk]
  omega

theorem formatXYN_fieldsOf (hp : pat.toNat = o.toNat * 4096) (h : Row.matchesWord ⟨0xF000, pat, b⟩ op = true) :
    formatXY o (fieldsOf op).x (fieldsOf op).y (BitVec.ofNat 4 (fieldsOf op).n.val) = op := by
  apply BitVec.eq_of_toNat_eq
  have ho := nibble0_of_match_F000 hp h
  rw [toNat_formatXY, toNat_ofNat4_fin, fieldsOf_x, fieldsOf_y, fieldsOf_n]
  omega

theorem formatXY_fieldsOf {s : BitVec 4} (hp : pat.toNat = o.toNat * 4096 + s.toNat)
    (h : Row.matchesWord ⟨0xF00F, pat, b⟩ op = true) : formatXY o (fieldsOf op).x (fieldsOf op).y s = op := by
  apply BitVec.eq_of_toNat_eq
  obtain ⟨ho, hs⟩ := fixed_of_match_F00F hp h
  rw [toNat_formatXY, fieldsOf_x, fieldsOf_y]
  omega

theorem formatX_fieldsOf {s : Byte} (hp : pat.toNat = o.toNat * 4096 + s.toNat)
    (h : Row.matchesWord ⟨0xF0FF, pat, b⟩ op = true) : formatX o (fieldsOf op).x s = op := by
  apply BitVec.eq_of_toNat_eq
  obtain ⟨ho, hs⟩ := fixed_of_match_F0FF hp h
  rw [formatX, toNat_formatXK, fieldsOf_x]
  omega

end

/-- Encoding what a row builds from a word's fields gives the word back. -/
def Row.Encodes (r : Row) : Prop := ∀ op : Word, r.matchesWord op = true → encode (r.build (fieldsOf op)) = op

theorem rowsE_encode : ∀ r ∈ rowsE, r.Encodes := by
  simp only [rowsE, List.forall_mem_cons]
  exact ⟨fun _ h => (matchesWord_FFFF_iff.mp h).symm, fun _ h => (matchesWord_FFFF_iff.mp h).symm,
    List.forall_mem_nil _⟩

theorem rowsF000_encode : ∀ r ∈ rowsF000, r.Encodes := by
  simp only [rowsF000, List.forall_mem_cons]
  refine ⟨fun _ => formatA_fieldsOf rfl, fun _ => formatA_fieldsOf rfl, fun _ => formatXK_fieldsOf rfl,
    fun _ => formatXK_fieldsOf rfl, fun _ => formatXK_fieldsOf rfl, fun _ => formatXK_fieldsOf rfl,
    fun _ => formatA_fieldsOf rfl, fun _ => formatA_fieldsOf rfl, fun _ => formatXK_fieldsOf rfl,
    fun _ => formatXYN_fieldsOf rfl, List.forall_mem_nil _⟩

theorem rowsF00F_encode : ∀ r ∈ rowsF00F, r.Encodes := by
  simp only [rowsF00F, List.forall_mem_cons]
  refine ⟨?_, ?_, ?_, ?_, ?_, ?_, ?_, ?_, ?_, ?_, ?_, List.forall_mem_nil _⟩ <;> exact fun _ => formatXY_fieldsOf rfl

theorem rowsF0FF_encode : ∀ r ∈ rowsF0FF, r.Encodes := by
  simp only [rowsF0FF, List.forall_mem_cons]
  refine ⟨?_, ?_, ?_, ?_, ?_, ?_, ?_, ?_, ?_, ?_, ?_, List.forall_mem_nil _⟩ <;> exact fun _ => formatX_fieldsOf rfl

theorem mem_opcodeMap {r : Row} : r ∈ opcodeMap ↔ ((r ∈ rowsE ∨ r ∈ rowsF000) ∨ r ∈ rowsF00F) ∨ r ∈ rowsF0FF := by
  simp only [opcodeMap, List.mem_append]

theorem opcodeMap_encode {r : Row} (hr : r ∈ opcodeMap) : r.Encodes := by
  rcases mem_opcodeMap.mp hr with ((hr | hr) | hr) | hr
  · exact rowsE_encode r hr
  · exact rowsF000_encode r hr
  · exact rowsF00F_encode r hr
  · exact rowsF0FF_encode r hr

theorem encode_of_decodeWord {op : Word} {i : Instr} (h : decodeWord op = .ok i) : encode i = op := by
  obtain ⟨r, hr, hm, rfl⟩ := exists_row_of_decodeWord h
  exact opcodeMap_encode hr op hm

/-! ### Which words match a row: R85's masks against R91's families -/

section
variable (op : Word)

theorem wellFormedFamily0_iff : wellFormedFamily0 op = true ↔ op = 0x00E0#16 ∨ op = 0x00EE#16 := by
  rw [wellFormedFamily0, Bool.or_eq_true, beq_iff_eq, beq_iff_eq]

theorem wellFormedFamily59_iff : wellFormedFamily59 op = true ↔ op.toNat % 16 = 0 := beq_iff_eq

theorem wellFormedFamily8_iff :
    wellFormedFamily8 op = true ↔ op.toNat % 16 ∈ [0, 1, 2, 3, 4, 5, 6, 7, 0xE] := List.contains_iff_mem

theorem wellFormedFamilyE_iff : wellFormedFamilyE op = true ↔ op.toNat % 256 ∈ [0x9E, 0xA1] := List.contains_iff_mem

theorem wellFormedFamilyF_iff :
    wellFormedFamilyF op = true ↔ op.toNat % 256 ∈ [0x07, 0x0A, 0x15, 0x18, 0x1E, 0x29, 0x33, 0x55, 0x65] :=
  List.contains_iff_mem

theorem exists_rowsE_iff :
    (∃ r ∈ rowsE, r.matchesWord op = true) ↔ op.toNat / 4096 = 0 ∧ wellFormedFamily0 op = true := by
  simp only [rowsE, List.mem_cons, List.not_mem_nil, or_false, exists_eq_or_imp, exists_eq_left, matchesWord_FFFF_iff,
    wellFormedFamily0_iff]
  exact (and_iff_right_of_imp fun h => by rcases h with rfl | rfl <;> rfl).symm

theorem exists_rowsF000_iff :
    (∃ r ∈ rowsF000, r.matchesWord op = true) ↔
      op.toNat / 4096 ∈ [1, 2, 3, 4, 6, 7, 0xA, 0xB, 0xC, 0xD] := by
  simp only [rowsF000, List.mem_cons, List.not_mem_nil, or_false, exists_eq_or_imp, exists_eq_left,
    matchesWord_F000_iff, BitVec.reduceToNat]
  omega

theorem exists_rowsF00F_iff :
    (∃ r ∈ rowsF00F, r.matchesWord op = true) ↔
      (op.toNat / 4096 = 5 ∨ op.toNat / 4096 = 9) ∧ wellFormedFamily59 op = true ∨
      op.toNat / 4096 = 8 ∧ wellFormedFamily8 op = true := by
  simp only [rowsF00F, List.mem_cons, List.not_mem_nil, or_false, exists_eq_or_imp, exists_eq_left,
    matchesWord_F00F_iff, BitVec.reduceToNat, wellFormedFamily59_iff, wellFormedFamily8_iff]
  omega

theorem exists_rowsF0FF_iff :
    (∃ r ∈ rowsF0FF, r.matchesWord op = true) ↔
      op.toNat / 4096 = 0xE ∧ wellFormedFamilyE op = true ∨ op.toNat / 4096 = 0xF ∧ wellFormedFamilyF op = true := by
  simp only [rowsF0FF, List.mem_cons, List.not_mem_nil, or_false, exists_eq_or_imp, exists_eq_left,
    matchesWord_F0FF_iff, BitVec.reduceToNat, wellFormedFamilyE_iff, wellFormedFamilyF_iff]
  omega

theorem exists_row_iff :
    (∃ r ∈ opcodeMap, r.matchesWord op = true) ↔
      (((∃ r ∈ rowsE, r.matchesWord op = true) ∨ ∃ r ∈ rowsF000, r.matchesWord op = true) ∨
        ∃ r ∈ rowsF00F, r.matchesWord op = true) ∨ ∃ r ∈ rowsF0FF, r.matchesWord op = true := by
  simp only [mem_opcodeMap, or_and_right, exists_or]

/-- R85's masks and R91's checks name the same words: each family's check is that of its rows' format. -/
theorem exists_row_iff_wellFormedWord :
    (∃ r ∈ opcodeMap, r.matchesWord op = true) ↔ wellFormedWord op = true := by
  rw [exists_row_iff, exists_rowsE_iff, exists_rowsF000_iff, exists_rowsF00F_iff, exists_rowsF0FF_iff]
  unfold wellFormedWord
  split
  case h_7 h0 h5 h8 h9 hE hF =>
    have hlt := op.isLt
    refine iff_of_true (.inl (.inl (.inr ?_))) rfl
    simp only [imp_false] at h0 h5 h8 h9 hE hF
    simp only [List.mem_cons, List.not_mem_nil]
    omega
  case h_1 h | h_2 h | h_3 h | h_4 h | h_5 h | h_6 h => simp [h]

end

/-! ### The statements -/

/-- Settles O2: the bytes make the word again, and the word matches the row of its instruction. -/
theorem decodeOfEncode : Obligations.DecodeOfEncode := fun i rest =>
  decodeBytes_bytesOfWord_append (decodeWord_encode i) rest

/-- Settles O3, by the round trip of the row that matches. -/
theorem encodeOfDecode : Obligations.EncodeOfDecode := fun _ _ => encode_of_decodeWord

/-- Settles O4: the words with a row are the well-formed ones, and the decoder finds the row when there is one. -/
theorem decodesExactlyTheWellFormedWords : Obligations.DecodesExactlyTheWellFormedWords := by
  intro op
  constructor
  · intro h
    obtain ⟨r, hr, hm⟩ := (exists_row_iff_wellFormedWord op).mpr h
    exact ⟨_, decodeWord_of_matchesWord hr hm⟩
  · intro h
    refine decodeWord_of_no_match fun hm => ?_
    exact absurd ((exists_row_iff_wellFormedWord op).mp hm) (Bool.eq_false_iff.mp h)

/-- Settles O5: any two rows disagree on a bit that both fix. -/
theorem opcodeRowsAreDisjoint : Obligations.OpcodeRowsAreDisjoint :=
  ⟨rfl, opcodeMap_pairwise_disagrees.imp Row.Disagrees.not_both_match⟩

/-- Settles O6: no row before the one that matches does. -/
theorem everyRowDecodesItsWords : Obligations.EveryRowDecodesItsWords := fun r op hr h =>
  decodeWord_of_matchesWord hr ((r.matchesWord_iff_and_mask op).mpr h)

/-- Settles O1: each sample is the encoding of its instruction, and 0x5AB1 fails the check of family 5. -/
theorem sampleWordsDecode : Obligations.SampleWordsDecode :=
  ⟨decodeWord_encode .cls, decodeWord_encode .ret, decodeWord_encode (.jp 0xABC), decodeWord_encode (.ldImm 10 0x42),
    decodeWord_encode (.addReg 10 11), decodeWord_encode (.sneReg 10 11), decodeWord_encode (.drw 5 10 7),
    decodeWord_encode (.skp 2), decodeWord_encode (.loadRegs 1), (decodesExactlyTheWellFormedWords 0x5AB1).2 rfl⟩

end Sys2Proof
end

section
/-! PROOFS of the statements on the cycle (`40_cycle.md`). An instruction's outcome depends on the core alone, but for
the readers of a port, so presenting other inputs before it or after it is the same (`exec_present`). The other
statements follow the cycle's parts: the fetch of a placed word, the decoded instruction, the advance of pc. -/

namespace Sys2Proof.Machine

/-! ### The advances of pc (R103) -/

theorem nextPc_of_pc_eq {s t : State} (h : t.chip.pc = s.chip.pc + 2) : NextPc s t :=
  (congrArg BitVec.toNat h).trans (BitVec.toNat_add ..)

/-- After a conditional skip pc is 2 or 4 further. -/
theorem skipIf_nextPc_or_skips {s t : State} {b : Bool} (h : t.chip = s.chip.skipIf b) :
    NextPc s t ∨ t.chip.pc.toNat = (s.chip.pc.toNat + 4) % 65536 := by
  have hpc : t.chip.pc = if b then s.chip.pc + 4 else s.chip.pc + 2 := (congrArg Chip.pc h).trans (s.chip.skipIf_pc b)
  cases b with
  | false => exact .inl (nextPc_of_pc_eq hpc)
  | true => exact .inr ((congrArg BitVec.toNat hpc).trans (BitVec.toNat_add ..))

/-! ### What a cycle runs (R100, R102, R105) -/

theorem cycle_of_decodeWord_ok {s : State} {i : Instr} (h : decodeWord s.chip.fetch = .ok i) : cycle s = exec i s := by
  rw [cycle, h]

theorem cycle_of_decodeWord_error {s : State} {e : DecodeError} (h : decodeWord s.chip.fetch = .error e) :
    cycle s = .next (s.finish s.chip.advance (.unknownOpcode s.chip.fetch)) := by
  rw [cycle, h, takeUnknownOpcode_eq]

/-! ### A word placed at pc -/

theorem tableWord_toNat (op : Word) : tableWord 16 op.toNat = op := by
  rw [tableWord, Nat.min_self, Nat.mod_eq_of_lt op.isLt, BitVec.ofNat_toNat, BitVec.setWidth_eq]

theorem State.withFetchWord_toNat (s : State) (op : Word) : s.withFetchWord 16 op.toNat = s.placeWord op :=
  congrArg s.placeWord (tableWord_toNat op)

theorem Chip.fetch_placeAtPc {c : Chip} (h : c.mem.wf) (op : Word) : (c.placeAtPc op).fetch = op := by
  have hl : (bytesOfWord op).length ≤ memSize := (by decide : 2 ≤ memSize)
  have hhigh := Memory.read_writeBytes_at h (k := 0) hl rfl (Nat.ModEq.refl c.pc.toNat)
  have hlow := Memory.read_writeBytes_at h (k := 1) hl rfl (Nat.ModEq.refl (c.pc.toNat + 1))
  exact (congrArg₂ wordOfBytes hhigh hlow).trans (wordOfBytes_bytes op)

/-- Without the operations before its first cycle, a list of operations is empty or begins with a cycle. -/
theorem dropWhile_not_isCycle (ops : List HostOp) :
    ops.dropWhile (fun o => !o.isCycle) = [] ∨
      ∃ key rnd rest, ops.dropWhile (fun o => !o.isCycle) = .cycle key rnd :: rest := by
  induction ops with
  | nil => exact .inl rfl
  | cons o ops ih =>
    cases o with
    | cycle key rnd => exact .inr ⟨key, rnd, ops, rfl⟩
    | timerTick | reset font rom => exact ih

/-! ### The inputs reach only their readers (R31, R106) -/

theorem onNext_congr {f g : State → State} {o : StepOutcome} (h : ∀ t, o = .next t → f t = g t) :
    onNext f o = onNext g o := by
  cases o with
  | next t => exact congrArg Host.Outcome.next (h t rfl)
  | fault r | refused r => rfl

theorem execRet_present (s : State) (key : Keypad) (rnd : Byte) :
    execRet (s.present key rnd) = onNext (·.present key rnd) (execRet s) := by
  simp only [execRet, State.present_chip, apply_ite (onNext _)]
  cases s.chip.slot? (s.chip.sp.toNat - 1) <;> rfl

theorem execCall_present (nnn : Addr) (s : State) (key : Keypad) (rnd : Byte) :
    execCall nnn (s.present key rnd) = onNext (·.present key rnd) (execCall nnn s) := by
  simp only [execCall, State.present_chip, apply_ite (onNext _)]
  rfl

theorem State.afterKeyWait_present (s : State) (x : RegIdx) (key : Keypad) (rnd : Byte) (k : Option (Fin 16)) :
    (s.present key rnd).afterKeyWait x k = (s.afterKeyWait x k).present key rnd := by
  cases k <;> rfl

/-- An instruction under other inputs ends as it did, with those inputs on the ports, if the keys differ only where
it is none of the three that read them and the random byte only where it is not Cxkk. -/
theorem exec_present {i : Instr} {s : State} {key : Keypad} {rnd : Byte}
    (hkey : key = s.key ∨ (∀ x, i ≠ .skp x) ∧ (∀ x, i ≠ .sknp x) ∧ ∀ x, i ≠ .ldVxK x)
    (hrnd : rnd = s.rnd ∨ ∀ x kk, i ≠ .rnd x kk) :
    exec i (s.present key rnd) = onNext (·.present key rnd) (exec i s) := by
  cases i with
  | ret => exact execRet_present s key rnd
  | call nnn => exact execCall_present nnn s key rnd
  | skp x =>
    obtain rfl := hkey.resolve_right fun ⟨hskp, _, _⟩ => hskp x rfl
    rfl
  | sknp x =>
    obtain rfl := hkey.resolve_right fun ⟨_, hsknp, _⟩ => hsknp x rfl
    rfl
  | ldVxK x =>
    obtain rfl := hkey.resolve_right fun ⟨_, _, hwait⟩ => hwait x rfl
    exact congrArg Host.Outcome.next (s.afterKeyWait_present x s.key rnd (lowestKeyDown s.key))
  | rnd x kk =>
    obtain rfl := hrnd.resolve_right fun h => h x kk rfl
    rfl
  | _ => rfl

/-! ### The statements -/

/-- Settles O52: presenting the inputs again, one of them another, reaches only what reads that one. -/
theorem inputsReachOnlyTheirReaders : Obligations.InputsReachOnlyTheirReaders := by
  intro i s key rnd
  constructor
  · intro hskp hsknp hwait
    refine (exec_present (rnd := s.rnd) (.inr ⟨hskp, hsknp, hwait⟩) (.inl rfl)).trans (onNext_congr fun t ht => ?_)
    obtain ⟨c, r, rfl⟩ := exec_next_eq_finish ht
    rfl
  · intro hrnd
    refine (exec_present (key := s.key) (.inl rfl) (.inr hrnd)).trans (onNext_congr fun t ht => ?_)
    obtain ⟨c, r, rfl⟩ := exec_next_eq_finish ht
    rfl

/-- Settles O50, by cases on the advance: a skip, a wait that may hold pc, and the default one of all the others. -/
theorem pcAdvancesUnlessTransferred : Obligations.PcAdvancesUnlessTransferred := by
  intro i s t h hjp hjpV0 hcall hret
  cases i with
  | jp nnn => exact absurd rfl (hjp nnn)
  | jpV0 nnn => exact absurd rfl (hjpV0 nnn)
  | call nnn => exact absurd rfl (hcall nnn)
  | ret => exact absurd rfl hret
  | seImm x kk | sneImm x kk | seReg x y | sneReg x y | skp x | sknp x =>
    cases h
    exact (skipIf_nextPc_or_skips rfl).imp_right .inl
  | ldVxK x =>
    rcases execLdVxK_cases x s with ⟨_, e⟩ | ⟨k, _, e⟩ <;> cases e.symm.trans h
    · exact .inr (.inr ⟨rfl, rfl⟩)
    · exact .inl (nextPc_of_pc_eq rfl)
  | loadRegs x =>
    cases h
    exact .inl (nextPc_of_pc_eq (congrArg (· + 2) (Chip.setRegs_pc ..)))
  | _ =>
    cases h
    exact .inl (nextPc_of_pc_eq rfl)

/-- Settles O9: the placed word's two bytes are the ones fetched, and the operations before the next cycle are
dropped. -/
theorem placedWordIsFetched : Obligations.PlacedWordIsFetched := by
  intro s op hs
  rw [s.withFetchWord_toNat]
  exact ⟨Chip.fetch_placeAtPc hs.2 op, dropWhile_not_isCycle s.host⟩

/-- Settles O10: a word without a row decodes to an error, on which the cycle advances pc and reports the word. -/
theorem unknownOpcodeIsReportedAndSkipped : Obligations.UnknownOpcodeIsReportedAndSkipped := by
  intro s key rnd hrows
  have hdecode : decodeWord s.chip.fetch = .error (.unknownOpcode s.chip.fetch) :=
    decodeWord_of_no_match fun ⟨r, hr, hm⟩ => Bool.false_ne_true ((hrows r hr).symm.trans hm)
  exact ⟨_, cycle_of_decodeWord_error (s := s.present key rnd) hdecode, nextPc_of_pc_eq rfl, rfl, rfl, rfl⟩

/-- Settles O8: the step starts a cycle, and the cycle runs what the two bytes at pc decode to. -/
theorem stepRunsDecodedInstruction : Obligations.StepRunsDecodedInstruction := by
  intro s i hdecode
  constructor
  · intro key rnd rest hhost
    rw [step_listed _ rest s hhost]
    exact cycle_of_decodeWord_ok (s := State.present { s with host := rest } key rnd) hdecode
  · intro hhost
    rw [step_unlisted s hhost]
    exact congrArg _ (cycle_of_decodeWord_ok
      (s := State.present { s with turn := s.turn + 1 } (Config.freeKeys s.turn) (Config.freeRandom s.turn)) hdecode)

end Sys2Proof.Machine
end

section
/-! PROOFS of the statements on control transfer (`41_control.md`). Jumps and skips are one write of pc. Below the full
stack CALL is a push and above the empty one RET is a pop, and the slot a push writes is the one the next pop reads. -/

namespace Sys2Proof.Machine

/-! ### What a cycle that ends OK keeps -/

theorem endsWith_finish (s : State) (c : Chip) (r : Result) : EndsWith r s (s.finish c r) := ⟨rfl, rfl, rfl, rfl, rfl⟩

theorem pcFrame_finish_setPc (s : State) (w : Word) : PcFrame s (s.finish (s.chip.setPc w) .ok) :=
  ⟨fun _ _ => rfl, rfl, ⟨rfl, rfl⟩, rfl, rfl, fun _ => rfl, endsWith_finish ..⟩

/-- A conditional skip is a write of pc, whatever its condition. -/
theorem pcFrame_finish_skipIf (s : State) (b : Bool) : PcFrame s (s.finish (s.chip.skipIf b) .ok) :=
  pcFrame_finish_setPc ..

/-! ### Targets and skips as numbers -/

@[simp] theorem addrOperand_toNat (nnn : Addr) : (addrOperand nnn).toNat = nnn.toNat :=
  BitVec.toNat_setWidth_of_le (by decide)

@[simp] theorem zext16_toNat (b : Byte) : (zext16 b).toNat = b.toNat := BitVec.toNat_setWidth_of_le (by decide)

/-- At most 0xFFF and 0xFF are added, so the 16-bit sum does not wrap (R127). -/
theorem addrOperand_add_zext16_toNat (nnn : Addr) (b : Byte) :
    (addrOperand nnn + zext16 b).toNat = nnn.toNat + b.toNat := by
  rw [BitVec.toNat_add, addrOperand_toNat, zext16_toNat]
  omega

theorem Chip.skipIf_pc_toNat (c : Chip) (b : Bool) :
    (c.skipIf b).pc.toNat = (c.pc.toNat + if b then 4 else 2) % 65536 := by
  cases b <;> exact BitVec.toNat_add ..

theorem Chip.skipIf_beq_pc_toNat (c : Chip) (a b : Byte) :
    (c.skipIf (a == b)).pc.toNat = (c.pc.toNat + if a = b then 4 else 2) % 65536 := by
  simp only [Chip.skipIf_pc_toNat, beq_iff_eq]

theorem Chip.skipIf_bne_pc_toNat (c : Chip) (a b : Byte) :
    (c.skipIf (a != b)).pc.toNat = (c.pc.toNat + if a = b then 2 else 4) % 65536 := by
  simp only [Chip.skipIf_pc_toNat, bne_iff_ne, ne_eq, ite_not]

/-! ### CALL and RET, by the stack pointer -/

theorem exec_call_of_full {s : State} (nnn : Addr) (h : s.chip.sp = 16) :
    exec (.call nnn) s = .next (s.finish s.chip .stackOverflow) := if_pos h

theorem exec_call_of_room {s : State} (nnn : Addr) (h : s.chip.sp.toNat < stackDepth) :
    exec (.call nnn) s = .next (s.finish ((s.chip.push s.chip.pc).setPc (addrOperand nnn)) .ok) := by
  have hne : s.chip.sp ≠ 16 := fun e => absurd (e ▸ h) (by decide)
  exact (if_neg hne).trans (if_pos h)

theorem exec_ret_of_empty {s : State} (h : s.chip.sp = 0) : exec .ret s = .next (s.finish s.chip .stackUnderflow) :=
  if_pos h

theorem exec_ret_of_slot {s : State} {a : Word} (h : 0 < s.chip.sp.toNat)
    (ha : s.chip.slot? (s.chip.sp.toNat - 1) = some a) :
    exec .ret s = .next (s.finish (s.chip.drop.setPc (a + 2)) .ok) := by
  have hne : s.chip.sp ≠ 0 := fun e => absurd (e ▸ h) (by decide)
  simp only [exec, execRet, if_neg hne, ha, complete_eq]

/-! ### Push and pop -/

theorem Chip.push_sp_toNat {c : Chip} (w : Word) (h : c.sp.toNat < stackDepth) :
    (c.push w).sp.toNat = c.sp.toNat + 1 := by
  simp only [stackDepth] at h
  rw [Chip.push_sp]
  bv_omega

theorem Chip.drop_sp_toNat {c : Chip} (h : 0 < c.sp.toNat) : c.drop.sp.toNat = c.sp.toNat - 1 := by
  rw [Chip.drop_sp]
  bv_omega

theorem Chip.push_stack_same {c : Chip} (w : Word) (h : c.sp.toNat < stackDepth) :
    (c.push w).stack[c.sp.toNat]? = some w := by
  rw [Chip.push_stack, Vector.getElem?_setIfInBounds_self_of_lt h]

theorem Chip.push_stack_other {c : Chip} (w : Word) {k : Nat} (h : k ≠ c.sp.toNat) :
    (c.push w).stack[k]? = c.stack[k]? := by
  rw [Chip.push_stack, Vector.getElem?_setIfInBounds_ne h.symm]

/-! ### The statements -/

/-- Settles O15: the slot below the sp that CALL leaves holds the CALL's own address, so RET reads it there. -/
theorem callThenRetResumesAfterTheCall : Obligations.CallThenRetResumesAfterTheCall := by
  intro s t u nnn hroom ht hkeeps
  cases (exec_call_of_room nnn hroom).symm.trans ht
  obtain ⟨hsp, hstack⟩ : u.chip.sp = s.chip.sp + 1 ∧ u.chip.stack = (s.chip.push s.chip.pc).stack := hkeeps
  have hspNat : u.chip.sp.toNat = s.chip.sp.toNat + 1 := hsp ▸ Chip.push_sp_toNat s.chip.pc hroom
  have hslot : u.chip.slot? (u.chip.sp.toNat - 1) = some s.chip.pc := by
    rw [Chip.slot?, hstack, hspNat, Nat.add_sub_cancel]
    exact Chip.push_stack_same s.chip.pc hroom
  have hpopped : u.chip.sp - 1 = s.chip.sp := by rw [hsp, BitVec.add_sub_cancel]
  exact ⟨_, exec_ret_of_slot (hspNat ▸ Nat.succ_pos _) hslot, nextPc_of_pc_eq rfl, hpopped, fun _ _ => rfl⟩

/-- Settles O11: pc is nnn zero-extended. -/
theorem jumpLandsOnItsTarget : Obligations.JumpLandsOnItsTarget := fun s nnn =>
  ⟨_, rfl, addrOperand_toNat nnn, pcFrame_finish_setPc s _⟩

/-- Settles O12: the sum of a 12-bit address and a byte fits in pc. -/
theorem indexedJumpStoresTheWholeSum : Obligations.IndexedJumpStoresTheWholeSum := fun s nnn =>
  ⟨_, rfl, addrOperand_add_zext16_toNat nnn (s.chip.reg 0), pcFrame_finish_setPc s _⟩

/-- Settles O13: an overflow is raised on the core as it was; otherwise CALL is a push and a jump. -/
theorem callPushesItsOwnAddress : Obligations.CallPushesItsOwnAddress := by
  intro s nnn
  constructor
  · intro hfull
    exact ⟨_, exec_call_of_full nnn hfull, rfl, endsWith_finish ..⟩
  · intro hroom
    exact ⟨_, exec_call_of_room nnn hroom, Chip.push_stack_same s.chip.pc hroom,
      fun _ hk => Chip.push_stack_other s.chip.pc hk, Chip.push_sp_toNat s.chip.pc hroom, addrOperand_toNat nnn,
      fun _ _ => rfl, rfl, rfl, rfl, fun _ => rfl, endsWith_finish ..⟩

/-- Settles O14: an underflow is raised on the core as it was; otherwise RET is a pop and a jump past its value. -/
theorem retReturnsPastTheCall : Obligations.RetReturnsPastTheCall := by
  intro s
  constructor
  · intro hempty
    exact ⟨_, exec_ret_of_empty hempty, rfl, endsWith_finish ..⟩
  · intro a hused hslot
    exact ⟨_, exec_ret_of_slot hused hslot, Chip.drop_sp_toNat hused, BitVec.toNat_add a 2, rfl, fun _ _ => rfl, rfl,
      rfl, rfl, fun _ => rfl, endsWith_finish ..⟩

/-- Settles O16: two skips test equality and two its negation. -/
theorem skipsAdvanceByFourOrTwo : Obligations.SkipsAdvanceByFourOrTwo := fun s x y kk =>
  ⟨⟨_, rfl, pcFrame_finish_skipIf .., s.chip.skipIf_beq_pc_toNat (s.chip.reg x) kk⟩,
    ⟨_, rfl, pcFrame_finish_skipIf .., s.chip.skipIf_bne_pc_toNat (s.chip.reg x) kk⟩,
    ⟨_, rfl, pcFrame_finish_skipIf .., s.chip.skipIf_beq_pc_toNat (s.chip.reg x) (s.chip.reg y)⟩,
    ⟨_, rfl, pcFrame_finish_skipIf .., s.chip.skipIf_bne_pc_toNat (s.chip.reg x) (s.chip.reg y)⟩⟩

end Sys2Proof.Machine
end

section
/-! PROOFS of the statements on register load, arithmetic, logic, shift and random (`42_alu.md`). Every instruction here
advances pc after one of two writes: Vx alone, or Vx and then the flag. What each write leaves in the state is said once
for any values written; an instruction then adds only what its values are as numbers or bit by bit. -/

namespace Sys2Proof.Machine

/-! ### What the two writes leave -/

theorem finish_setReg_getLsbD (s : State) (x : RegIdx) (b : Byte) (j : Nat) :
    ((s.finish (s.chip.setReg x b).advance .ok).chip.reg x).getLsbD j = b.getLsbD j :=
  congrArg (BitVec.getLsbD · j) (Chip.setReg_reg_self ..)

theorem regFrame_finish_setReg (s : State) (x : RegIdx) (b : Byte) :
    RegFrame (· = x) s (s.finish (s.chip.setReg x b).advance .ok) :=
  ⟨fun _ hr => Chip.setReg_reg_of_ne _ b hr, rfl, ⟨rfl, rfl⟩, rfl, rfl, fun _ => rfl, endsWith_finish ..⟩

theorem regFrame_finish_setResultAndFlag (s : State) (x : RegIdx) (result flag : Byte) :
    RegFrame (fun r => r = x ∨ r = vf) s (s.finish (s.chip.setResultAndFlag x result flag).advance .ok) :=
  ⟨fun _ hr => Chip.setResultAndFlag_other _ _ _ (not_or.mp hr).1 (not_or.mp hr).2, rfl, ⟨rfl, rfl⟩, rfl, rfl,
    fun _ => rfl, endsWith_finish ..⟩

/-- VF reads as the flag for every x, and Vx as the result unless the flag overwrote it (R108, D11). -/
theorem exec_of_setResultAndFlag {i : Instr} {s : State} {x : RegIdx} {result flag : Byte} {r f : Nat}
    (hexec : exec i s = completeNext s (s.chip.setResultAndFlag x result flag)) (hflag : flag.toNat = f)
    (hresult : result.toNat = r) :
    ∃ t, exec i s = .next t ∧ (t.chip.reg vf).toNat = f ∧ (x ≠ vf → (t.chip.reg x).toNat = r) ∧ NextPc s t ∧
      RegFrame (fun r => r = x ∨ r = vf) s t :=
  ⟨_, hexec, (congrArg BitVec.toNat (Chip.setResultAndFlag_vf ..)).trans hflag,
    fun hx => (congrArg BitVec.toNat (Chip.setResultAndFlag_result _ _ _ hx)).trans hresult, nextPc_of_pc_eq rfl,
    regFrame_finish_setResultAndFlag ..⟩

/-! ### Flags as numbers (R22) -/

theorem flagByte_toNat (b : Bool) : (flagByte b).toNat = b.toNat := by
  cases b <;> rfl

theorem flagByte_decide_toNat (p : Prop) [Decidable p] : (flagByte (decide p)).toNat = if p then 1 else 0 := by
  rw [flagByte_toNat, Bool.toNat, Bool.cond_decide]

theorem carryOut_toNat (a b : Byte) : (carryOut a b).toNat = if a.toNat + b.toNat > 255 then 1 else 0 :=
  flagByte_decide_toNat _

theorem strictlyGreater_toNat (a b : Byte) : (strictlyGreater a b).toNat = if a.toNat > b.toNat then 1 else 0 :=
  flagByte_decide_toNat _

theorem flagByte_getLsbD_toNat (a : Byte) (k : Nat) : (flagByte (a.getLsbD k)).toNat = a.toNat / 2 ^ k % 2 :=
  (flagByte_toNat _).trans (Nat.toNat_testBit ..)

theorem shiftedOutRight_toNat (a : Byte) : (shiftedOutRight a).toNat = a.toNat % 2 := by
  rw [shiftedOutRight, flagByte_getLsbD_toNat, Nat.pow_zero, Nat.div_one]

/-- Nothing stands above bit 7, so it is the whole quotient. -/
theorem shiftedOutLeft_toNat (a : Byte) : (shiftedOutLeft a).toNat = a.toNat / 128 := by
  rw [shiftedOutLeft, flagByte_getLsbD_toNat]
  omega

/-! ### Results as numbers -/

theorem byte_sub_toNat (a b : Byte) : (a - b).toNat = (a.toNat + 256 - b.toNat) % 256 := by
  rw [BitVec.toNat_sub]
  omega

theorem byte_shiftRight_one_toNat (a : Byte) : (a >>> 1).toNat = a.toNat / 2 := by
  rw [BitVec.toNat_ushiftRight, Nat.shiftRight_eq_div_pow, Nat.pow_one]

theorem byte_shiftLeft_one_toNat (a : Byte) : (a <<< 1).toNat = a.toNat * 2 % 256 := by
  rw [BitVec.toNat_shiftLeft, Nat.shiftLeft_eq, Nat.pow_one]

/-! ### The statements -/

/-- Settles O19: the two values written are the sum and its carry, both of the pre-state's registers. -/
theorem addRegistersSetsCarry : Obligations.AddRegistersSetsCarry := fun _ _ _ =>
  exec_of_setResultAndFlag rfl (carryOut_toNat ..) (BitVec.toNat_add ..)

/-- Settles O20: the two values written are the difference and the strict comparison of its operands. -/
theorem subtractionsSetNoBorrowStrictly : Obligations.SubtractionsSetNoBorrowStrictly := fun _ _ _ =>
  ⟨exec_of_setResultAndFlag rfl (strictlyGreater_toNat ..) (byte_sub_toNat ..),
    exec_of_setResultAndFlag rfl (strictlyGreater_toNat ..) (byte_sub_toNat ..)⟩

/-- Settles O21: the two values written are the shifted Vx and the bit shifted out; neither reads Vy. -/
theorem shiftsMoveOneBit : Obligations.ShiftsMoveOneBit := fun _ _ _ =>
  ⟨exec_of_setResultAndFlag rfl (shiftedOutRight_toNat _) (byte_shiftRight_one_toNat _),
    exec_of_setResultAndFlag rfl (shiftedOutLeft_toNat _) (byte_shiftLeft_one_toNat _)⟩

/-- Settles O17: each is one write of Vx, and the logic operations act bit by bit. -/
theorem loadsAndLogicWriteVxAlone : Obligations.LoadsAndLogicWriteVxAlone := fun _ _ _ _ =>
  ⟨⟨_, rfl, Chip.setReg_reg_self .., nextPc_of_pc_eq rfl, regFrame_finish_setReg ..⟩,
    ⟨_, rfl, Chip.setReg_reg_self .., nextPc_of_pc_eq rfl, regFrame_finish_setReg ..⟩,
    ⟨_, rfl, nextPc_of_pc_eq rfl, regFrame_finish_setReg ..,
      fun _ => (finish_setReg_getLsbD ..).trans BitVec.getLsbD_or⟩,
    ⟨_, rfl, nextPc_of_pc_eq rfl, regFrame_finish_setReg ..,
      fun _ => (finish_setReg_getLsbD ..).trans BitVec.getLsbD_and⟩,
    ⟨_, rfl, nextPc_of_pc_eq rfl, regFrame_finish_setReg ..,
      fun _ => (finish_setReg_getLsbD ..).trans BitVec.getLsbD_xor⟩⟩

/-- Settles O18: the one value written is the sum, and there is no write of the flag. -/
theorem addImmediateWrapsWithoutFlag : Obligations.AddImmediateWrapsWithoutFlag := fun s x kk =>
  ⟨_, rfl, (congrArg BitVec.toNat (Chip.setReg_reg_self ..)).trans (BitVec.toNat_add (s.chip.reg x) kk),
    nextPc_of_pc_eq rfl, regFrame_finish_setReg ..⟩

/-- Settles O22: the one value written is the random input masked, bit by bit. -/
theorem randomByteIsMasked : Obligations.RandomByteIsMasked := fun _ _ _ =>
  ⟨_, rfl, fun _ => (finish_setReg_getLsbD ..).trans BitVec.getLsbD_and, nextPc_of_pc_eq rfl,
    regFrame_finish_setReg ..⟩

end Sys2Proof.Machine
end

section
/-! PROOFS of the statements on the index register and memory (`43_index_memory.md`). Every instruction here advances pc
after one write: I alone, a run of bytes from I on, or V0 to Vx. What each write leaves in the state is said once for
any values written; an instruction then adds only what its values are as numbers or where its bytes stand. -/

namespace Sys2Proof.Machine

/-! ### Writes of I -/

theorem indexFrame_finish_setI (s : State) (w : Word) : IndexFrame s (s.finish (s.chip.setI w).advance .ok) :=
  ⟨fun _ _ => rfl, ⟨rfl, rfl⟩, rfl, rfl, fun _ => rfl, endsWith_finish ..⟩

theorem exec_of_setI {i : Instr} {s : State} {w : Word} {n : Nat}
    (hexec : exec i s = completeNext s (s.chip.setI w)) (hw : w.toNat = n) :
    ∃ t, exec i s = .next t ∧ t.chip.i.toNat = n ∧ NextPc s t ∧ IndexFrame s t :=
  ⟨_, hexec, hw, nextPc_of_pc_eq rfl, indexFrame_finish_setI ..⟩

/-- 65536 is the modulus of I itself (R161). -/
theorem add_zext16_toNat (w : Word) (b : Byte) : (w + zext16 b).toNat = (w.toNat + b.toNat) % 65536 := by
  rw [BitVec.toNat_add, zext16_toNat]

/-- At most 255 * 5 is stored, so the 16-bit product does not wrap (R162). -/
theorem zext16_mul_five_toNat (b : Byte) : (zext16 b * 5).toNat = b.toNat * 5 := by
  simp only [BitVec.toNat_mul, zext16_toNat, BitVec.reduceToNat]
  omega

/-- I is left alone by every update but its own. -/
theorem Updates.i_eq {i : Instr} {c d : Chip} (h : Updates i c d) (hl : ∀ nnn, i ≠ .ldI nnn)
    (ha : ∀ x, i ≠ .addI x) (hf : ∀ x, i ≠ .ldF x) : d.i = c.i := by
  induction h with
  | refl => rfl
  | index _ hw =>
    exact absurd hw (not_or.mpr ⟨not_exists.mpr hl, not_or.mpr ⟨not_exists.mpr ha, not_exists.mpr hf⟩⟩)
  | _ => assumption

/-! ### Runs of bytes stored from I on -/

theorem storeFrame_finish_store {s : State} (h : s.Inv) {n : Nat} {bs : List Byte} (hn : bs.length = n) :
    StoreFrame n s (s.finish (s.chip.store s.chip.i.toNat bs).advance .ok) := by
  refine ⟨fun _ _ => rfl, rfl, ⟨rfl, rfl⟩, rfl, rfl, fun a ha hout => ?_, endsWith_finish ..⟩
  exact Memory.lookup_writeBytes_other h.2 _ bs fun k hk => (Nat.mod_eq_of_lt ha).trans_ne (hout k (hn ▸ hk))

/-- The k-th of a byte's three decimal digits is read back at I + k, as the number it is: no digit is above the byte,
so each fits in one (R163). -/
theorem read_store_decimalDigits_toNat {c : Chip} (h : c.mem.wf) {b : Byte} {k n : Nat} (hn : n ≤ b.toNat)
    (hk : (decimalDigits b)[k]? = some (BitVec.ofNat 8 n)) :
    ((c.store c.i.toNat (decimalDigits b)).mem.read (c.i.toNat + k)).toNat = n := by
  have hl : (decimalDigits b).length ≤ memSize := (by decide : 3 ≤ memSize)
  rw [Chip.store_mem, Memory.read_writeBytes_at h hl hk rfl, BitVec.toNat_ofNat]
  exact Nat.mod_eq_of_lt (hn.trans_lt b.isLt)

/-! ### Loads of V0 to Vx -/

theorem regFrame_finish_setRegs (s : State) (x : RegIdx) (bs : List Byte) :
    RegFrame (· ≤ x) s (s.finish (s.chip.setRegs (regsUpTo x) bs).advance .ok) :=
  ⟨fun _ hr => Chip.setRegs_reg_of_not_mem _ _ _ (mt mem_regsUpTo.mp hr), Chip.setRegs_i ..,
    ⟨Chip.setRegs_sp .., Chip.setRegs_stack ..⟩, Chip.setRegs_dt .., Chip.setRegs_fb ..,
    fun a => congrArg (Memory.read · a) (Chip.setRegs_mem ..), endsWith_finish ..⟩

/-- After Fx65 each register r up to x holds the byte at I + r (R165). -/
theorem setRegs_readBytes_reg (c : Chip) {x r : RegIdx} (hr : r ≤ x) (m : Memory) (addr : Nat) :
    (c.setRegs (regsUpTo x) (m.readBytes addr (x.val + 1))).reg r = m.read (addr + r.val) := by
  have hreg : (regsUpTo x)[r.val]? = some r := by
    rw [regsUpTo_getElem? x r.val hr, Fin.ofNat_val_eq_self]
  exact Chip.setRegs_reg_getElem c (regsUpTo_nodup x) hreg (m.readBytes_getElem? addr (Nat.lt_succ_of_le hr))

/-! ### The statements -/

/-- Settles O25: the three bytes stored are the digits, each at its own masked address. -/
theorem bcdStoresThreeDigits : Obligations.BcdStoresThreeDigits := fun _ _ hs =>
  ⟨_, rfl, read_store_decimalDigits_toNat hs.2 (k := 0) (Nat.div_le_self ..) rfl,
    read_store_decimalDigits_toNat hs.2 ((Nat.mod_le ..).trans (Nat.div_le_self ..)) rfl,
    read_store_decimalDigits_toNat hs.2 (Nat.mod_le ..) rfl, nextPc_of_pc_eq rfl, storeFrame_finish_store hs rfl⟩

/-- Settles O26: the bytes stored are V0 to Vx, as many as the registers up to x. -/
theorem registerStoreIsAscending : Obligations.RegisterStoreIsAscending := fun _ x hs =>
  ⟨_, rfl, fun _ hr => read_store_regsUpTo hs.2 hr rfl, nextPc_of_pc_eq rfl,
    storeFrame_finish_store hs ((List.length_map _).trans (regsUpTo_length x))⟩

/-- Settles O27: the registers written are V0 to Vx, each once, with the bytes read from I on. -/
theorem registerLoadIsAscending : Obligations.RegisterLoadIsAscending := fun s _ =>
  ⟨_, rfl, fun _ hr => setRegs_readBytes_reg s.chip hr s.chip.mem s.chip.i.toNat,
    nextPc_of_pc_eq (congrArg (· + 2) (Chip.setRegs_pc ..)), regFrame_finish_setRegs ..⟩

/-- Settles O48, by the updates of I. -/
theorem onlyThreeInstructionsWriteI : Obligations.OnlyThreeInstructionsWriteI := fun _ _ _ h =>
  (exec_updates h).i_eq

/-- Settles O23: the values written to I are nnn zero-extended and the 16-bit sum. -/
theorem indexRegisterResults : Obligations.IndexRegisterResults := fun s x nnn =>
  ⟨exec_of_setI rfl (addrOperand_toNat nnn), exec_of_setI rfl (add_zext16_toNat s.chip.i (s.chip.reg x))⟩

/-- Settles O24: the value written to I is the product, which fits. -/
theorem glyphAddressIsFiveTimesVx : Obligations.GlyphAddressIsFiveTimesVx := fun s x =>
  exec_of_setI rfl (zext16_mul_five_toNat (s.chip.reg x))

end Sys2Proof.Machine
end

section
/-! PROOFS of the statements on the display (`44_display.md`). A sprite is narrower and lower than the framebuffer, so
its pixels fall on pairwise distinct cells (R183). Each cell then depends on the one pixel that falls on it, if any, and
neither the cells nor the collision bit depend on the order of the drawing. -/

namespace Sys2Proof.Machine

/-! ### No cell is drawn twice (R183) -/

/-- Two offsets below the modulus from the same base wrap to the same place only when they are equal. -/
theorem eq_of_ofNat_add_eq {m a i j : Nat} [NeZero m] (hi : i < m) (hj : j < m)
    (h : Fin.ofNat m (a + i) = Fin.ofNat m (a + j)) : i = j :=
  (Nat.ModEq.add_left_cancel' a (congrArg Fin.val h)).eq_of_lt_of_lt hi hj

theorem pixelAt_row_eq {x0 y0 b b' : Byte} {r r' c c' : Nat} (hr : r < 32) (hr' : r' < 32)
    (h : (pixelAt x0 y0 b r c).py = (pixelAt x0 y0 b' r' c').py) : r = r' :=
  eq_of_ofNat_add_eq hr hr' h

theorem pixelAt_column_eq {x0 y0 b b' : Byte} {r r' c c' : Nat} (hc : c < 8) (hc' : c' < 8)
    (h : (pixelAt x0 y0 b r c).px = (pixelAt x0 y0 b' r' c').px) : c = c' :=
  eq_of_ofNat_add_eq (hc.trans (by decide)) (hc'.trans (by decide)) h

/-- Within a row the columns differ; of two rows the row numbers differ. -/
theorem spritePixels_pairwise_distinct (x0 y0 : Byte) {rows : List Byte} (hrows : rows.length ≤ 32) :
    (spritePixels x0 y0 rows).Pairwise (fun p q => ¬ (p.px = q.px ∧ p.py = q.py)) := by
  refine List.pairwise_flatMap.mpr ⟨fun row _ => ?_, ?_⟩
  · refine List.pairwise_map.mpr (List.nodup_range.imp_of_mem fun hc hc' hne hcell => hne ?_)
    exact pixelAt_column_eq (List.mem_range.mp hc) (List.mem_range.mp hc') hcell.1
  · have hnumbers : rows.zipIdx.Pairwise (fun row row' => row.2 ≠ row'.2) :=
      List.pairwise_map.mp (List.nodup_zipIdx_map_snd rows)
    refine hnumbers.imp_of_mem fun hrow hrow' hne p hp q hq hcell => hne ?_
    obtain ⟨c, _, rfl⟩ := List.mem_map.mp hp
    obtain ⟨c', _, rfl⟩ := List.mem_map.mp hq
    have hlow {row : Byte × Nat} (h : row ∈ rows.zipIdx) : row.2 < 32 := (List.snd_lt_of_mem_zipIdx h).trans_le hrows
    exact pixelAt_row_eq (hlow hrow) (hlow hrow') hcell.2

/-! ### The order of drawing (R183) -/

theorem framebuffer_ext {f g : Framebuffer} (h : ∀ px py, cellAt f px py = cellAt g px py) : f = g :=
  Vector.ext fun x hx => Vector.ext fun y hy => h ⟨x, hx⟩ ⟨y, hy⟩

/-- A cell gets its new value from the pixel that falls on it, or keeps the old one, in either order. -/
theorem drawPixels_perm (fb : Framebuffer) {ps qs : List Pixel} (hperm : ps.Perm qs)
    (hps : ps.Pairwise (fun p q => ¬ (p.px = q.px ∧ p.py = q.py)))
    (hqs : qs.Pairwise (fun p q => ¬ (p.px = q.px ∧ p.py = q.py))) : drawPixels fb ps = drawPixels fb qs := by
  refine Prod.ext (framebuffer_ext fun px py => ?_) ?_
  · by_cases hcover : ∃ p ∈ ps, px = p.px ∧ py = p.py
    · obtain ⟨p, hp, rfl, rfl⟩ := hcover
      rw [drawPixels_at fb hps hp, drawPixels_at fb hqs (hperm.mem_iff.mp hp)]
    · have hother : ∀ p ∈ ps, ¬ (px = p.px ∧ py = p.py) := fun p hp hcell => hcover ⟨p, hp, hcell⟩
      rw [drawPixels_other fb hother, drawPixels_other fb fun q hq => hother q (hperm.mem_iff.mpr hq)]
  · rw [drawPixels_collision, drawPixels_collision, hperm.any_eq]

/-! ### The collision bit (R181) -/

theorem drawPixels_collision_true {fb : Framebuffer} {ps : List Pixel} {p : Pixel} (hp : p ∈ ps)
    (hcell : cellAt fb p.px p.py = true) (hbit : p.bit = true) : (drawPixels fb ps).2 = true := by
  rw [drawPixels_collision]
  exact List.any_eq_true.mpr ⟨p, hp, Bool.and_eq_true_iff.mpr ⟨hcell, hbit⟩⟩

theorem drawPixels_collision_false {fb : Framebuffer} {ps : List Pixel}
    (h : ∀ p ∈ ps, (cellAt fb p.px p.py && p.bit) = false) : (drawPixels fb ps).2 = false := by
  rw [drawPixels_collision]
  exact List.any_eq_false.mpr fun p hp => Bool.eq_false_iff.mp (h p hp)

/-! ### The sprite at I (R181) -/

/-- The pixels Dxyn draws, before any cell changes. -/
def State.drawn (s : State) (x y : RegIdx) (n : Fin 16) : List Pixel :=
  spritePixels (s.chip.reg x) (s.chip.reg y) (s.chip.sprite n)

theorem exec_drw (x y : RegIdx) (n : Fin 16) (s : State) :
    exec (.drw x y n) s = completeNext s ((s.chip.setFb (drawPixels s.chip.fb (s.drawn x y n)).1).setReg vf
      (flagByte (drawPixels s.chip.fb (s.drawn x y n)).2)) := rfl

theorem State.mem_drawn (s : State) {x y : RegIdx} {n : Fin 16} {r c : Nat} (hr : r < n.val) (hc : c < 8) :
    pixelAt (s.chip.reg x) (s.chip.reg y) (s.chip.mem.read (s.chip.i.toNat + r)) r c ∈ s.drawn x y n :=
  mem_spritePixels.mpr ⟨r, c, _, s.chip.mem.readBytes_getElem? s.chip.i.toNat hr, hc, rfl⟩

theorem State.exists_of_mem_drawn {s : State} {x y : RegIdx} {n : Fin 16} {p : Pixel} (hp : p ∈ s.drawn x y n) :
    ∃ r c, r < n.val ∧ c < 8 ∧
      p = pixelAt (s.chip.reg x) (s.chip.reg y) (s.chip.mem.read (s.chip.i.toNat + r)) r c := by
  obtain ⟨r, c, row, hrow, hc, rfl⟩ := mem_spritePixels.mp hp
  have hr : r < n.val := (List.getElem?_eq_some_iff.mp hrow).1.trans_eq (Memory.readBytes_length ..)
  cases (s.chip.mem.readBytes_getElem? s.chip.i.toNat hr).symm.trans hrow
  exact ⟨r, c, hr, hc, rfl⟩

theorem State.drawn_pairwise_distinct (s : State) (x y : RegIdx) (n : Fin 16) :
    (s.drawn x y n).Pairwise (fun p q => ¬ (p.px = q.px ∧ p.py = q.py)) :=
  spritePixels_pairwise_distinct _ _ ((Memory.readBytes_length ..).trans_le (n.isLt.le.trans (by decide)))

/-! ### The statements -/

/-- Settles O33: a permutation of pixels on distinct cells has distinct cells too, and draws the same. -/
theorem pixelOrderCannotMatter : Obligations.PixelOrderCannotMatter := by
  intro fb x0 y0 rows ps hrows hperm
  have hsprite := spritePixels_pairwise_distinct x0 y0 (hrows.trans (by decide))
  have hps := hperm.symm.pairwise hsprite fun hpq hcell => hpq ⟨hcell.1.symm, hcell.2.symm⟩
  exact ⟨hps, drawPixels_perm fb hperm hps hsprite⟩

/-- Settles O32: every pixel of the sprite is drawn on a cell of its own, and VF, written last, is the collision. -/
theorem drawXorsEveryPixel : Obligations.DrawXorsEveryPixel := by
  intro s x y n
  have hvf (f : Framebuffer) (b : Bool) : ((s.chip.setFb f).setReg vf (flagByte b)).advance.reg 15 = flagByte b :=
    Chip.setReg_reg_self ..
  refine ⟨_, exec_drw x y n s, fun r c hr hc => ?_, fun px py hout => ?_, ?_, fun hnone => ?_, nextPc_of_pc_eq rfl,
    fun _ hr => Chip.setReg_reg_of_ne _ _ hr, rfl, ⟨rfl, rfl⟩, rfl, fun _ => rfl, endsWith_finish ..⟩
  · exact drawPixels_at s.chip.fb (s.drawn_pairwise_distinct x y n) (s.mem_drawn hr hc)
  · refine drawPixels_other s.chip.fb fun p hp => ?_
    obtain ⟨r, c, hr, hc, rfl⟩ := State.exists_of_mem_drawn hp
    exact hout r c hr hc
  · rintro ⟨r, c, hr, hc, hcell, hbit⟩
    have hp := s.mem_drawn (x := x) (y := y) hr hc
    exact (hvf _ _).trans (congrArg flagByte (drawPixels_collision_true hp hcell hbit))
  · refine (hvf _ _).trans (congrArg flagByte (drawPixels_collision_false fun p hp => ?_))
    obtain ⟨r, c, hr, hc, rfl⟩ := State.exists_of_mem_drawn hp
    exact hnone r c hr hc

/-- Settles O31: the one write is that of the blank framebuffer. -/
theorem clsClearsEveryCell : Obligations.ClsClearsEveryCell := fun _ =>
  ⟨_, rfl, cellAt_blank, nextPc_of_pc_eq rfl, fun _ _ => rfl, rfl, ⟨rfl, rfl⟩, rfl, fun _ => rfl, endsWith_finish ..⟩

end Sys2Proof.Machine
end

section
/-! PROOFS of the statements on the keypad and the timer (`45_keypad_timer.md`). The one idea: the least key down is the
first that the search through the ascending key indices finds, so a wait is decided by the keys alone. While none is
down a cycle leaves the core as it was, and an induction over the inputs reaches the cycle that completes the wait. -/

namespace Sys2Proof.Machine

/-! ### Keys (R192, R196) -/

/-- The low four bits of a byte are its remainder modulo 16 (R196). -/
theorem keyIndex_eq_ofNat_mod (b : Byte) : keyIndex b = Fin.ofNat 16 (b.toNat % 16) := by
  apply Fin.ext
  simp [keyIndex]

theorem keyByte_toNat (k : Fin 16) : (keyByte k).toNat = k.val :=
  Nat.mod_eq_of_lt (k.isLt.trans (by decide))

/-- The k-th key index, ascending, is k. -/
theorem allKeys_getElem (k : Nat) (h : k < allKeys.length) : allKeys[k] = Fin.ofNat 16 k := by
  simp [allKeys]

theorem lowestKeyDown_eq_none {key : Keypad} (h : ∀ k, keyDown key k = false) : lowestKeyDown key = none :=
  List.find?_eq_none.mpr fun k _ => Bool.eq_false_iff.mp (h k)

/-- The keys before k in the search are the lower ones. -/
theorem lowestKeyDown_eq_some {key : Keypad} {k : Fin 16} (hk : keyDown key k = true)
    (hlow : ∀ j, j < k → keyDown key j = false) : lowestKeyDown key = some k := by
  refine List.find?_eq_some_iff_getElem.mpr ⟨hk, k.val, k.isLt, ?_, fun j hj => ?_⟩
  · exact (allKeys_getElem k.val k.isLt).trans (Fin.ofNat_val_eq_self k)
  · have hlt : Fin.ofNat 16 j < k := (Nat.mod_le j 16).trans_lt hj
    rw [allKeys_getElem, hlow _ hlt, Bool.not_false]

/-! ### Fx0A, by the keys (R192) -/

theorem exec_ldVxK_of_no_key {s : State} (x : RegIdx) (h : ∀ k, keyDown s.key k = false) :
    exec (.ldVxK x) s = .next (s.finish s.chip .waitKey) :=
  congrArg (fun k => Host.Outcome.next (s.afterKeyWait x k)) (lowestKeyDown_eq_none h)

theorem exec_ldVxK_of_lowest_key {s : State} (x : RegIdx) {k : Fin 16} (hk : keyDown s.key k = true)
    (hlow : ∀ j, j < k → keyDown s.key j = false) :
    exec (.ldVxK x) s = .next (s.finish (s.chip.setReg x (keyByte k)).advance .ok) :=
  congrArg (fun k => Host.Outcome.next (s.afterKeyWait x k)) (lowestKeyDown_eq_some hk hlow)

/-! ### Skips on a negated condition (R191) -/

theorem Chip.skipIf_not_pc_toNat (c : Chip) (b : Bool) :
    (c.skipIf (!b)).pc.toNat = (c.pc.toNat + if b then 2 else 4) % 65536 := by
  rw [Chip.skipIf_pc_toNat]
  cases b <;> rfl

/-! ### Runs -/

theorem run_succ_of_step_next {M : Host.Core} {s t : M.State} (h : M.step s = .next t) (n : Nat) :
    M.run (n + 1) s = M.run n t := by
  rw [Host.Core.run, h]

/-- A run of m + n steps goes on with n steps from the state that the first m reach. -/
theorem run_add_of_run_next {M : Host.Core} {m : Nat} {s t : M.State} (h : M.run m s = .next t) (n : Nat) :
    M.run (m + n) s = M.run n t := by
  induction m generalizing s with
  | zero =>
    cases h
    rw [Nat.zero_add]
  | succ m ih =>
    rw [Nat.succ_add]
    cases hstep : M.step s with
    | next u =>
      rw [run_succ_of_step_next hstep] at h ⊢
      exact ih h
    | fault r | refused r =>
      rw [Host.Core.run, hstep] at h
      cases h

/-! ### The statements -/

/-- Settles O34: the two skips test the key that the low four bits name, one of them negated. -/
theorem keySkipsTestTheLowNibble : Obligations.KeySkipsTestTheLowNibble := by
  intro s x
  rw [← keyIndex_eq_ofNat_mod]
  exact ⟨⟨_, rfl, pcFrame_finish_skipIf .., s.chip.skipIf_pc_toNat _⟩,
    ⟨_, rfl, pcFrame_finish_skipIf .., s.chip.skipIf_not_pc_toNat _⟩⟩

/-- Settles O36: Fx07 is one write of Vx, Fx15 one write of dt, and Fx18 no write but that of pc. -/
theorem timerInstructionResults : Obligations.TimerInstructionResults := fun _ _ =>
  ⟨⟨_, rfl, Chip.setReg_reg_self .., nextPc_of_pc_eq rfl, regFrame_finish_setReg ..⟩,
    ⟨_, rfl, rfl, nextPc_of_pc_eq rfl, fun _ _ => rfl, rfl, ⟨rfl, rfl⟩, rfl, fun _ => rfl, endsWith_finish ..⟩,
    ⟨_, rfl, nextPc_of_pc_eq rfl, pcFrame_finish_setPc ..⟩⟩

/-- Settles O35: the search for the lowest key finds none, or finds k. -/
theorem keyWaitTakesTheLowestKey : Obligations.KeyWaitTakesTheLowestKey := by
  intro s x
  constructor
  · intro hnone
    exact ⟨_, exec_ldVxK_of_no_key x hnone, rfl, endsWith_finish ..⟩
  · intro k hk hlow
    exact ⟨_, exec_ldVxK_of_lowest_key x hk hlow,
      (congrArg BitVec.toNat (Chip.setReg_reg_self ..)).trans (keyByte_toNat k), nextPc_of_pc_eq rfl,
      regFrame_finish_setReg ..⟩

/-- Over listed cycles without a key an Fx0A leaves the core as it was, so each of them runs it again. The result is
WAIT_KEY from the first of them on; that it stays so is what the induction hands on. -/
theorem run_ldVxK_of_no_key {x : RegIdx} {inputs : List (Keypad × Byte)} {rest : List HostOp} {s : State}
    (hdecode : decodeWord s.chip.fetch = .ok (.ldVxK x))
    (hhost : s.host = inputs.map (fun kr => .cycle kr.1 kr.2) ++ rest)
    (hnone : ∀ kr ∈ inputs, ∀ j, keyDown kr.1 j = false) :
    ∃ t : State, Host.Core.run Sys2Proof.core inputs.length s = .next t ∧ t.chip = s.chip ∧ t.host = rest ∧
      (inputs ≠ [] ∨ s.result = some .waitKey → t.result = some .waitKey) := by
  induction inputs generalizing s with
  | nil => exact ⟨s, rfl, rfl, hhost, fun h => h.resolve_left (absurd rfl)⟩
  | cons kr inputs ih =>
    obtain ⟨hkr, hinputs⟩ := List.forall_mem_cons.mp hnone
    have hstep := (stepRunsDecodedInstruction s _ hdecode).1 kr.1 kr.2 _ hhost
    obtain ⟨u, hexec, hchip, hresult, -, -, huhost, -⟩ :=
      (keyWaitTakesTheLowestKey { s with host := _, key := kr.1, rnd := kr.2 } x).1 hkr
    have hfetch : decodeWord u.chip.fetch = .ok (.ldVxK x) := hchip ▸ hdecode
    obtain ⟨t, hrun, htchip, hthost, htresult⟩ := ih hfetch huhost hinputs
    exact ⟨t, (run_succ_of_step_next (hstep.trans hexec) _).trans hrun, htchip.trans hchip, hthost,
      fun _ => htresult (.inr hresult)⟩

/-- Settles O39: the cycles without a key leave the core and the last listed cycle, which then takes the lowest key. -/
theorem keyWaitRepeatsUntilAKeyIsDown : Obligations.KeyWaitRepeatsUntilAKeyIsDown := by
  intro s x inputs key rnd k hdecode hhost hnone hk hlow
  obtain ⟨t, hrun, hchip, hthost, hresult⟩ := run_ldVxK_of_no_key hdecode hhost hnone
  refine ⟨⟨t, hrun, hchip, fun h => hresult (.inl h)⟩, ?_⟩
  have hfetch : decodeWord t.chip.fetch = .ok (.ldVxK x) := hchip ▸ hdecode
  have hstep := (stepRunsDecodedInstruction t _ hfetch).1 key rnd [] hthost
  obtain ⟨u, hexec, hreg, hpc, -, -, -, -, -, -, hend⟩ :=
    (keyWaitTakesTheLowestKey { t with host := [], key := key, rnd := rnd } x).2 k hk hlow
  have hspc : NextPc s u := hpc.trans (congrArg (fun c : Chip => (c.pc.toNat + 2) % 65536) hchip)
  exact ⟨u, (run_add_of_run_next hrun 1).trans (run_succ_of_step_next (hstep.trans hexec) 0), hreg, hspc, hend.1⟩

end Sys2Proof.Machine
end

section
/-! PROOFS of the statements on exceptions and the host's operations (`60_exceptions.md`). A stack error
and a TimerTick leave all of the core but dt, and no fetch reads dt, so the next operation meets the same error. What a
cycle does to the core depends on nothing that is the host's, so exchanging the listed operations and the count before
it or after it is the same (`cycleOp_withHost`). -/

namespace Sys2Proof.Machine

/-! ### The timer (R222) -/

theorem tickDown_toNat (d : Byte) : (tickDown d).toNat = d.toNat - 1 := by
  rw [tickDown]
  split
  next h => simp [h]
  next => bv_omega

theorem tickDownBy_toNat (n : Nat) (d : Byte) : (tickDownBy n d).toNat = d.toNat - n := by
  rw [tickDownBy]
  split
  next h => simp [h]
  next =>
    rw [BitVec.toNat_ofNat]
    omega

theorem tickDownBy_zero (d : Byte) : tickDownBy 0 d = d :=
  BitVec.eq_of_toNat_eq (tickDownBy_toNat 0 d)

theorem tickDownBy_tickDown (n : Nat) (d : Byte) : tickDownBy n (tickDown d) = tickDownBy (n + 1) d := by
  apply BitVec.eq_of_toNat_eq
  rw [tickDownBy_toNat, tickDownBy_toNat, tickDown_toNat]
  omega

theorem State.timerTicks_zero (s : State) : s.timerTicks 0 = s := by
  rw [State.timerTicks, Chip.timerTicks, tickDownBy_zero, Chip.setDt]

theorem State.timerTicks_timerTick (n : Nat) (s : State) : s.timerTick.timerTicks n = s.timerTicks (n + 1) :=
  congrArg (fun b => { s with chip := s.chip.setDt b }) (tickDownBy_tickDown n s.chip.dt)

/-! ### A cycle and what the host keeps -/

/-- `s` with these operations listed and this count of unlisted cycles: what is the host's alone (log entry 1). -/
def State.withHost (s : State) (ops : List HostOp) (n : Nat) : State := { s with host := ops, turn := n }

/-- No instruction reads what is the host's. -/
theorem exec_withHost (i : Instr) (s : State) (ops : List HostOp) (n : Nat) :
    exec i (s.withHost ops n) = onNext (·.withHost ops n) (exec i s) := by
  cases i with
  | ret =>
    simp only [exec, execRet, State.withHost, apply_ite (onNext _)]
    cases s.chip.slot? (s.chip.sp.toNat - 1) <;> rfl
  | call nnn =>
    simp only [exec, execCall, State.withHost, apply_ite (onNext _)]
    rfl
  | ldVxK x =>
    simp only [exec, execLdVxK, State.withHost]
    cases lowestKeyDown s.key <;> rfl
  | _ => rfl

theorem cycleOp_withHost (key : Keypad) (rnd : Byte) (s : State) (ops : List HostOp) (n : Nat) :
    cycleOp key rnd (s.withHost ops n) = onNext (·.withHost ops n) (cycleOp key rnd s) := by
  rcases cycle_cases (s.present key rnd) with ⟨i, hdecode, e⟩ | ⟨⟨_, hdecode⟩, e⟩
  · rw [cycleOp, cycleOp, e]
    exact (cycle_of_decodeWord_ok (s := (s.present key rnd).withHost ops n) hdecode).trans (exec_withHost ..)
  · rw [cycleOp, cycleOp, e]
    exact cycle_of_decodeWord_error (s := (s.present key rnd).withHost ops n) hdecode

theorem step_withHost_cons (op : HostOp) (s : State) (ops : List HostOp) (n : Nat) :
    step (s.withHost (op :: ops) n) = runOp op (s.withHost ops n) := step_listed op ops _ rfl

/-- A cycle, once it is listed, ends as it does by itself and leaves the operations listed after it. -/
theorem step_listed_cycle {key : Keypad} {rnd : Byte} {s t : State} (h : cycleOp key rnd s = .next t)
    (ops : List HostOp) (n : Nat) : step (s.withHost (.cycle key rnd :: ops) n) = .next (t.withHost ops n) := by
  rw [step_withHost_cons, runOp, cycleOp_withHost, h, onNext]

/-- A cycle leaves the ports and the host's operations alone. -/
theorem cycle_next_eq_finish {s t : State} (h : cycle s = .next t) : ∃ c r, t = s.finish c r := by
  rcases cycle_cases s with ⟨i, _, e⟩ | ⟨_, e⟩
  · exact exec_next_eq_finish (e.symm.trans h)
  · exact ⟨_, _, Host.Outcome.next.inj (h.symm.trans e)⟩

theorem core_run_succ {s t : State} (h : step s = .next t) (n : Nat) :
    Host.Core.run Sys2Proof.core (n + 1) s = Host.Core.run Sys2Proof.core n t :=
  run_succ_of_step_next (M := Sys2Proof.core) h n

/-- Listed TimerTicks run one by one are as many TimerTicks in a row. -/
theorem run_listed_timerTicks (n : Nat) (s : State) (m : Nat) :
    Host.Core.run Sys2Proof.core n (s.withHost (List.replicate n .timerTick) m) =
      .next ((s.timerTicks n).withHost [] m) := by
  induction n generalizing s with
  | zero => rw [State.timerTicks_zero]; rfl
  | succ n ih =>
    rw [← State.timerTicks_timerTick, ← ih]
    exact core_run_succ (step_withHost_cons .timerTick s _ m) n

/-! ### Stack errors (R212, R213) -/

/-- Neither the fetch nor a stack error reads dt. -/
theorem StackErrorAt.of_setDt {r : Result} {s t : State} {b : Byte} (h : StackErrorAt r s)
    (hchip : t.chip = s.chip.setDt b) : StackErrorAt r t := by
  rw [StackErrorAt, hchip]
  exact h

theorem cycleOp_of_stackErrorAt {r : Result} {s : State} (h : StackErrorAt r s) (key : Keypad) (rnd : Byte) :
    cycleOp key rnd s = .next ((s.present key rnd).finish s.chip r) := by
  rcases h with ⟨rfl, hfull, nnn, hdecode⟩ | ⟨rfl, hempty, hdecode⟩
  · exact (cycle_of_decodeWord_ok (s := s.present key rnd) hdecode).trans (exec_call_of_full nnn hfull)
  · exact (cycle_of_decodeWord_ok (s := s.present key rnd) hdecode).trans (exec_ret_of_empty hempty)

theorem freeRun_of_stackErrorAt {r : Result} {s : State} (h : StackErrorAt r s) :
    ∃ t, freeRun s = .next t ∧ t.chip = s.chip.setDt t.chip.dt ∧ t.host = s.host := by
  have hcycle := cycleOp_of_stackErrorAt (s := { s with turn := s.turn + 1 }) h (Config.freeKeys s.turn)
    (Config.freeRandom s.turn)
  exact ⟨_, congrArg (thenTicks _) hcycle, rfl, rfl⟩

/-- At a stack error every operation but a Reset leaves all of the core but dt, and lists nothing new. -/
theorem step_of_stackErrorAt {r : Result} {s : State} (h : StackErrorAt r s) (hreset : NoReset s) :
    ∃ t, step s = .next t ∧ t.chip = s.chip.setDt t.chip.dt ∧ NoReset t := by
  cases hhost : s.host with
  | nil =>
    obtain ⟨t, hrun, hchip, hthost⟩ := freeRun_of_stackErrorAt h
    exact ⟨t, (step_unlisted s hhost).trans hrun, hchip, fun font rom => hthost ▸ hreset font rom⟩
  | cons op rest =>
    rw [step_listed op rest s hhost]
    have hrest : ∀ font rom, HostOp.reset font rom ∉ rest := fun font rom hmem =>
      hreset font rom (hhost ▸ List.mem_cons_of_mem op hmem)
    cases op with
    | cycle key rnd => exact ⟨_, cycleOp_of_stackErrorAt (s := { s with host := rest }) h key rnd, rfl, hrest⟩
    | timerTick => exact ⟨_, rfl, rfl, hrest⟩
    | reset font rom => exact absurd (hhost ▸ List.mem_cons_self) (hreset font rom)

/-! ### Every operation but a too large Reset has a next state -/

theorem exec_next_of_inv {s : State} (hs : s.Inv) (i : Instr) : ∃ t, exec i s = .next t := by
  cases h : exec i s with
  | next t => exact ⟨t, rfl⟩
  | fault f => exact absurd hs.1 (Nat.not_le.mpr (exec_fault h).2)
  | refused r => exact absurd h (exec_not_refused i s r)

theorem cycleOp_next_of_inv {s : State} (hs : s.Inv) (key : Keypad) (rnd : Byte) :
    ∃ t, cycleOp key rnd s = .next t := by
  rcases cycle_cases (s.present key rnd) with ⟨i, _, e⟩ | ⟨_, e⟩
  · obtain ⟨t, ht⟩ := exec_next_of_inv (s := s.present key rnd) hs i
    exact ⟨t, e.trans ht⟩
  · exact ⟨_, e⟩

theorem freeRun_next_of_inv {s : State} (hs : s.Inv) : ∃ t, freeRun s = .next t := by
  obtain ⟨u, hu⟩ := cycleOp_next_of_inv (s := { s with turn := s.turn + 1 }) hs (Config.freeKeys s.turn)
    (Config.freeRandom s.turn)
  exact ⟨_, congrArg (thenTicks _) hu⟩

theorem resetChip_of_length_le (font : Font) {rom : List Byte} (h : rom.length ≤ romMax) :
    resetChip font rom = some { Chip.reset with mem := memoryImage font rom } := if_neg (Nat.not_lt.mpr h)

theorem resetOp_of_length_le (font : Font) {rom : List Byte} (h : rom.length ≤ romMax) (s : State) :
    resetOp font rom s =
      .next { s with chip := { Chip.reset with mem := memoryImage font rom }, result := none } := by
  rw [resetOp, resetChip_of_length_le font h]

/-! ### Keys -/

theorem mem_allKeys : ∀ k, k ∈ allKeys := by decide

theorem keyDown_eq_false_of_lowestKeyDown_eq_none {key : Keypad} (h : lowestKeyDown key = none) (k : Fin 16) :
    keyDown key k = false :=
  Bool.eq_false_iff.mpr (List.find?_eq_none.mp h k (mem_allKeys k))

/-! ### The statements -/

/-- Settles O53, by induction on the number of steps: each leaves a state that is at the same stack error. -/
theorem stackErrorsRecurUntilReset : Obligations.StackErrorsRecurUntilReset := by
  intro k r s h hreset
  induction k generalizing s with
  | zero => exact ⟨s, rfl, rfl, fun key rnd => ⟨_, cycleOp_of_stackErrorAt h key rnd, rfl, endsWith_finish ..⟩⟩
  | succ k ih =>
    obtain ⟨u, hstep, hchip, hu⟩ := step_of_stackErrorAt h hreset
    obtain ⟨t, hrun, htchip, hcycle⟩ := ih u (h.of_setDt hchip) hu
    refine ⟨t, (core_run_succ hstep k).trans hrun, htchip.trans ?_, hcycle⟩
    rw [hchip]
    rfl

/-- Settles O38: the listed cycle ends as the free one does, but for what the host keeps, and the listed TimerTicks
after it are the free ones. -/
theorem unlistedHostIsAListedOne : Obligations.UnlistedHostIsAListedOne := by
  intro s t hhost hstep
  obtain ⟨u, hcycle, rfl⟩ := thenTicks_next (step_unlisted s hhost ▸ hstep)
  have huhost : u.host = [] := by
    obtain ⟨c, r, rfl⟩ := cycle_next_eq_finish hcycle
    exact hhost
  have hturn : { u.timerTicks (Config.freeTicks s.turn) with turn := s.turn } =
      (u.timerTicks (Config.freeTicks s.turn)).withHost [] s.turn := by
    rw [State.withHost, ← huhost]
    rfl
  rw [hturn, ← run_listed_timerTicks]
  exact core_run_succ (step_listed_cycle hcycle _ s.turn) _

/-- Settles O45, by cases on the host's next operation: an instruction faults only above the invariant's bound on sp,
and a Reset only with a ROM too large. -/
theorem noStepStopsButATooLargeRom : Obligations.NoStepStopsButATooLargeRom := by
  intro s hs hrom
  cases hhost : s.host with
  | nil =>
    rw [step_unlisted s hhost]
    exact freeRun_next_of_inv hs
  | cons op rest =>
    rw [step_listed op rest s hhost]
    cases op with
    | cycle key rnd => exact cycleOp_next_of_inv (s := { s with host := rest }) hs key rnd
    | timerTick => exact ⟨_, rfl⟩
    | reset font rom =>
      have hfits : rom.length ≤ romMax := Nat.le_of_not_lt fun hlt => hrom ⟨font, rom, rest, hhost, hlt⟩
      exact ⟨_, resetOp_of_length_le font hfits _⟩

/-- Settles O51: CALL, RET and the key wait end in the ways listed for them, and every other instruction completes. -/
theorem onlyThreeInstructionsReportACode : Obligations.OnlyThreeInstructionsReportACode := by
  intro i s t h
  cases i with
  | call nnn =>
    rcases execCall_cases nnn s with ⟨hfull, e⟩ | ⟨_, e⟩ | ⟨_, e⟩ <;> cases e.symm.trans h
    · exact .inr (.inl ⟨⟨nnn, rfl⟩, hfull, rfl, endsWith_finish ..⟩)
    · exact .inl (endsWith_finish ..)
  | ret =>
    rcases execRet_cases s with ⟨hempty, e⟩ | ⟨_, _, _, e⟩ | ⟨_, e⟩ <;> cases e.symm.trans h
    · exact .inr (.inr (.inl ⟨rfl, hempty, rfl, endsWith_finish ..⟩))
    · exact .inl (endsWith_finish ..)
  | ldVxK x =>
    rcases execLdVxK_cases x s with ⟨hnone, e⟩ | ⟨_, _, e⟩ <;> cases e.symm.trans h
    · exact .inr (.inr (.inr ⟨⟨x, rfl⟩, keyDown_eq_false_of_lowestKeyDown_eq_none hnone, rfl, endsWith_finish ..⟩))
    · exact .inl (endsWith_finish ..)
  | _ =>
    cases h
    exact .inl (endsWith_finish ..)

/-- Settles O37: the step is the listed TimerTick, which writes dt alone. -/
theorem timerTickFloorsAtZero : Obligations.TimerTickFloorsAtZero := fun s rest hhost =>
  ⟨_, step_listed .timerTick rest s hhost, tickDown_toNat s.chip.dt, rfl, rfl, rfl, rfl, rfl, rfl⟩

end Sys2Proof.Machine
end

section
/-! PROOFS of the statements on Reset and on fixed points (`70_reset_and_hazards.md`). The memory image is two runs of
writes, the FONT's and the ROM's; neither wraps and they do not meet, so an address reads from the one that covers it
and as zero where none does. The rest of the core Reset makes is the reset state's. -/

namespace Sys2Proof.Machine

/-! ### The memory image (R241) -/

/-- A run of writes that does not wrap leaves every address below it and above it. -/
theorem Memory.read_writeBytes_outside {m : Memory} (h : m.wf) {addr a : Nat} {bs : List Byte} (ha : a < memSize)
    (hfits : addr + bs.length ≤ memSize) (hout : a < addr ∨ addr + bs.length ≤ a) :
    (m.writeBytes addr bs).read a = m.read a := by
  rw [Memory.read_of_lt _ ha, Memory.read_of_lt _ ha]
  refine Memory.lookup_writeBytes_other h addr bs fun k hk => ?_
  rw [Nat.mod_eq_of_lt (by omega)]
  omega

theorem memoryImage_font_wf (font : Font) : (Memory.writeBytes [] 0x000 font.toList).wf :=
  Memory.wf_writeBytes Memory.wf_nil 0x000 font.toList

theorem memoryImage_read_rom (font : Font) {rom : List Byte} (h : rom.length ≤ romMax) {k : Nat}
    (hk : k < rom.length) : (memoryImage font rom).read (progBase + k) = rom[k] :=
  Memory.read_writeBytes_at (memoryImage_font_wf font) (h.trans (by decide)) (List.getElem?_eq_getElem hk) rfl

/-- Outside the ROM the image reads as the FONT alone does. -/
theorem memoryImage_read_outside_rom (font : Font) {rom : List Byte} (h : rom.length ≤ romMax) {a : Nat}
    (ha : a < memSize) (hout : a < progBase ∨ progBase + rom.length ≤ a) :
    (memoryImage font rom).read a = (Memory.writeBytes [] 0x000 font.toList).read a :=
  Memory.read_writeBytes_outside (memoryImage_font_wf font) ha (Nat.add_le_add_left h progBase) hout

theorem memoryImage_read_font (font : Font) {rom : List Byte} (h : rom.length ≤ romMax) {k : Nat}
    (hk : k < fontBytes) : (memoryImage font rom).read k = font[k] := by
  have hbase : k < progBase := hk.trans (by decide)
  rw [memoryImage_read_outside_rom font h (hbase.trans (by decide)) (.inl hbase)]
  have hbyte : font.toList[k]? = some font[k] := by
    rw [Vector.getElem?_toList, Vector.getElem?_eq_getElem hk]
  exact Memory.read_writeBytes_at Memory.wf_nil (Vector.length_toList.trans_le (by decide)) hbyte (by rw [Nat.zero_add])

/-- No run of writes covers an address above the FONT and outside the ROM, and unlisted it reads as zero. -/
theorem memoryImage_read_zero (font : Font) {rom : List Byte} (h : rom.length ≤ romMax) {a : Nat}
    (hfont : fontBytes ≤ a) (ha : a < memSize) (hout : a < progBase ∨ progBase + rom.length ≤ a) :
    (memoryImage font rom).read a = 0 := by
  have hlength : font.toList.length = fontBytes := Vector.length_toList
  calc (memoryImage font rom).read a
      _ = (Memory.writeBytes [] 0x000 font.toList).read a := memoryImage_read_outside_rom font h ha hout
      _ = Memory.read [] a := Memory.read_writeBytes_outside Memory.wf_nil ha (by omega) (by omega)
      _ = Memory.unlisted a := reset_mem_read ha
      _ = 0 := Memory.unlisted_of_le hfont

/-! ### The result code of Reset, and a ROM too large (R240, R242) -/

theorem resetResult_of_length_le {rom : List Byte} (h : rom.length ≤ romMax) : resetResult rom = .resetOk :=
  if_neg (Nat.not_lt.mpr h)

theorem resetResult_of_romMax_lt {rom : List Byte} (h : romMax < rom.length) :
    resetResult rom = .romTooLarge rom.length := if_pos h

theorem resetOp_of_romMax_lt (font : Font) {rom : List Byte} (h : romMax < rom.length) (s : State) :
    resetOp font rom s = .fault (.romTooLarge rom.length) := by
  have hchip : resetChip font rom = none := if_pos h
  rw [resetOp, hchip]

/-! ### A jump to where pc is -/

theorem Chip.setPc_of_pc_eq {c : Chip} {w : Word} (h : c.pc = w) : c.setPc w = c := by
  subst h
  rfl

/-! ### The statements -/

/-- Settles O41: an address reads from the run of writes that covers it; every other item is the reset state's, and no
item is the prior state's. -/
theorem resetLoadsFontAndRom : Obligations.ResetLoadsFontAndRom := by
  intro font rom s hfits
  obtain ⟨hreg, hi, hpc, hsp, hdt, hslot, hcell, -, -, -⟩ := resetStateHoldsTheTableOfValues
  refine ⟨resetResult_of_length_le hfits, _, resetOp_of_length_le font hfits s, fun k hk => ?font,
    fun a hfont hbase => ?between, fun k hk => ?rom, fun a hend ha => ?after, hreg, hi, hpc, hsp, hdt, hslot, hcell, rfl,
    fun s' => ⟨_, resetOp_of_length_le font hfits s', rfl⟩⟩
  case font => exact memoryImage_read_font font hfits hk
  case between => exact memoryImage_read_zero font hfits hfont (hbase.trans (by decide)) (.inl hbase)
  case rom => exact memoryImage_read_rom font hfits hk
  case after => exact memoryImage_read_zero font hfits ((Nat.le_add_right_of_le (by decide)).trans hend) ha (.inr hend)

/-- Settles O54: the jump writes to pc the address it already holds. -/
theorem jumpToItselfIsFinished : Obligations.JumpToItselfIsFinished := by
  intro s nnn hdecode hself key rnd
  have hpc : s.chip.pc = addrOperand nnn := BitVec.eq_of_toNat_eq (hself.trans (addrOperand_toNat nnn).symm)
  exact ⟨_, cycle_of_decodeWord_ok (s := s.present key rnd) hdecode, Chip.setPc_of_pc_eq hpc, rfl⟩

/-- Settles O42: the listed Reset is the step, and it answers with the fault. -/
theorem romTooLargeLeavesNoState : Obligations.RomTooLargeLeavesNoState := by
  intro font rom s rest hhost hlarge
  refine ⟨resetResult_of_romMax_lt hlarge, ?_⟩
  exact (step_listed (.reset font rom) rest s hhost).trans (resetOp_of_romMax_lt font hlarge _)

end Sys2Proof.Machine
end
